-- ==== Sys2Proof/Word.lean ====
section
/-! DEFINITION. The machine word and the byte (00_scope.md rules R5, R8): 32-bit and 8-bit vectors, with core Lean's
arithmetic modulo 2^32, which is the spec's arithmetic on `Word32` unless a rule says "exact". -/

namespace Sys2Proof

/-- `Word32` of 00_scope.md R8: registers, pc, sp, hp, addresses while they are computed, instruction words. -/
abbrev Word := BitVec 32

/-- One byte: a memory cell (20_memory.md R50), an opcode or an operand field (30_encoding.md R80). -/
abbrev Byte := BitVec 8

end Sys2Proof
end

