-- ==== Sys2Proof/Syntax.lean ====
section
/-! DEFINITION. The instructions: one constructor per row of spec/opcode_table.json, in the table's order, with the
operand slots the instruction uses (30_encoding.md R84), each the 8-bit field of the word as it stands. A slot the rule
marks `-` is neither read nor checked (30_encoding.md R93, R94), so it has no argument. A register field of 4 or more is
an instruction too: it raises `InvalidRegister` when it runs (30_encoding.md R88). -/

namespace Sys2Proof

/-- An assigned instruction with its used operand bytes, in slot order. -/
inductive Instr where
  /-- ADD Rd, Rs, Rt (42_arithmetic.md R160). -/
  | add (d s t : Byte)
  /-- SUB Rd, Rs, Rt (42_arithmetic.md R161). -/
  | sub (d s t : Byte)
  /-- MUL Rd, Rs, Rt (42_arithmetic.md R162). -/
  | mul (d s t : Byte)
  /-- DIV Rd, Rs, Rt (42_arithmetic.md R163). -/
  | div (d s t : Byte)
  /-- AND Rd, Rs, Rt (43_logic_shift.md R170). -/
  | and (d s t : Byte)
  /-- OR Rd, Rs, Rt (43_logic_shift.md R171). -/
  | or (d s t : Byte)
  /-- XOR Rd, Rs, Rt (43_logic_shift.md R172). -/
  | xor (d s t : Byte)
  /-- NOT Rd, Rs (43_logic_shift.md R173). -/
  | not (d s : Byte)
  /-- SHL Rd, Rs, Rt (43_logic_shift.md R174). -/
  | shl (d s t : Byte)
  /-- SHR Rd, Rs, Rt (43_logic_shift.md R175). -/
  | shr (d s t : Byte)
  /-- EQ Rd, Rs, Rt (44_compare.md R182). -/
  | eq (d s t : Byte)
  /-- NEQ Rd, Rs, Rt (44_compare.md R183). -/
  | neq (d s t : Byte)
  /-- GT Rd, Rs, Rt (44_compare.md R184). -/
  | gt (d s t : Byte)
  /-- LT Rd, Rs, Rt (44_compare.md R185). -/
  | lt (d s t : Byte)
  /-- GE Rd, Rs, Rt (44_compare.md R186). -/
  | ge (d s t : Byte)
  /-- LE Rd, Rs, Rt (44_compare.md R187). -/
  | le (d s t : Byte)
  /-- LOAD Rd, imm (45_load_store.md R190). -/
  | load (d imm : Byte)
  /-- STORE Rv, Ra (45_load_store.md R191). -/
  | store (v a : Byte)
  /-- JUMP tgt (46_control_transfer.md R200). -/
  | jump (tgt : Byte)
  /-- JZ tgt (46_control_transfer.md R201). -/
  | jz (tgt : Byte)
  /-- JNZ tgt (46_control_transfer.md R202). -/
  | jnz (tgt : Byte)
  /-- CALL Rs (46_control_transfer.md R203). -/
  | call (s : Byte)
  /-- RET (46_control_transfer.md R204). -/
  | ret
  /-- PUSH Rs (47_stack.md R210). -/
  | push (s : Byte)
  /-- POP Rd (47_stack.md R211). -/
  | pop (d : Byte)
  /-- HALT (48_system.md R220). -/
  | halt
  /-- OUT Rs (48_system.md R221). -/
  | out (s : Byte)
deriving DecidableEq, Repr

/-- The three operand slots of a word: op0 = bits 23..16, op1 = bits 15..8, op2 = bits 7..0 (30_encoding.md R80). -/
inductive Slot where
  | op0
  | op1
  | op2
deriving DecidableEq, Repr

/-- The addressing modes of the resolver (00_scope.md R11, 30_encoding.md R86 to R91). -/
inductive Mode where
  | immediate
  | register
  | memory
  | indirect
  | indexed
deriving DecidableEq, Repr

end Sys2Proof
end

