-- ==== Sys2Proof/Decode.lean ====
section
/-! DEFINITION. Bit fields, byte order, the decoder (total on any word and on any bytes) and the encoder, from the format
and the opcode map of 30_encoding.md R80 to R86 and the byte order of 20_memory.md R52. -/

namespace Sys2Proof

/-! ### Byte order (20_memory.md R52) -/

/-- The little-endian word of four bytes, `b0` at the lowest address: `b3 ++ b2 ++ b1 ++ b0` (20_memory.md R52). -/
def wordOfBytes (b0 b1 b2 b3 : Byte) : Word := b3 ++ b2 ++ b1 ++ b0

/-- Byte `k` of a word, byte 0 being bits 7..0, the one stored at the lowest address (20_memory.md R52). -/
def wordByte (w : Word) (k : Nat) : Byte := w.extractLsb' (8 * k) 8

/-- The four bytes of a word in the order they stand in memory (20_memory.md R52). -/
def wordBytes (w : Word) : List Byte := [wordByte w 0, wordByte w 1, wordByte w 2, wordByte w 3]

/-! ### The one instruction format (30_encoding.md R80 to R83) -/

/-- A word split into its opcode and its three operand bytes (30_encoding.md R80). -/
structure Fields where
  opcode : Byte
  op0 : Byte
  op1 : Byte
  op2 : Byte
deriving DecidableEq, Repr

/-- The split of 30_encoding.md R81: opcode = bits 31..24, op0 = 23..16, op1 = 15..8, op2 = 7..0. -/
def wordFields (w : Word) : Fields :=
  { opcode := w.extractLsb' 24 8, op0 := w.extractLsb' 16 8, op1 := w.extractLsb' 8 8, op2 := w.extractLsb' 0 8 }

/-- The packing of 30_encoding.md R82, the opcode in the most significant byte. -/
def packFields (f : Fields) : Word := f.opcode ++ f.op0 ++ f.op1 ++ f.op2

/-! ### Decoding -/

/-- Why bytes are no instruction. -/
inductive DecodeError where
  /-- Fewer than the four bytes every instruction has (30_encoding.md R83). Never raised by a fetch. -/
  | truncated
  /-- The opcode byte, 0x1B to 0xFF, has no assigned instruction (30_encoding.md R85, 48_system.md R222). The engine
  turns it into `InvalidOpcode` (41_execution_cycle.md R143). -/
  | unassignedOpcode (opcode : Byte)
deriving DecidableEq, Repr

/-- The opcode map (30_encoding.md R84). It looks at the opcode byte alone (R94) and drops the slots marked `-`. -/
def instrOfFields (f : Fields) : Except DecodeError Instr :=
  match f.opcode.toNat with
  | 0x00 => .ok (.add f.op0 f.op1 f.op2)
  | 0x01 => .ok (.sub f.op0 f.op1 f.op2)
  | 0x02 => .ok (.mul f.op0 f.op1 f.op2)
  | 0x03 => .ok (.div f.op0 f.op1 f.op2)
  | 0x04 => .ok (.and f.op0 f.op1 f.op2)
  | 0x05 => .ok (.or f.op0 f.op1 f.op2)
  | 0x06 => .ok (.xor f.op0 f.op1 f.op2)
  | 0x07 => .ok (.not f.op0 f.op1)
  | 0x08 => .ok (.shl f.op0 f.op1 f.op2)
  | 0x09 => .ok (.shr f.op0 f.op1 f.op2)
  | 0x0A => .ok (.eq f.op0 f.op1 f.op2)
  | 0x0B => .ok (.neq f.op0 f.op1 f.op2)
  | 0x0C => .ok (.gt f.op0 f.op1 f.op2)
  | 0x0D => .ok (.lt f.op0 f.op1 f.op2)
  | 0x0E => .ok (.ge f.op0 f.op1 f.op2)
  | 0x0F => .ok (.le f.op0 f.op1 f.op2)
  | 0x10 => .ok (.load f.op0 f.op1)
  | 0x11 => .ok (.store f.op0 f.op1)
  | 0x12 => .ok (.jump f.op0)
  | 0x13 => .ok (.jz f.op0)
  | 0x14 => .ok (.jnz f.op0)
  | 0x15 => .ok (.call f.op0)
  | 0x16 => .ok .ret
  | 0x17 => .ok (.push f.op0)
  | 0x18 => .ok (.pop f.op0)
  | 0x19 => .ok .halt
  | 0x1A => .ok (.out f.op0)
  | _ => .error (.unassignedOpcode f.opcode)

/-- The decoder on a word, total (30_encoding.md R81). -/
def decodeWord (w : Word) : Except DecodeError Instr := instrOfFields (wordFields w)

/-- The decoder on bytes in memory order: the instruction and the bytes after it (30_encoding.md R83: four bytes). -/
def decodeBytes : List Byte → Except DecodeError (Instr × List Byte)
  | b0 :: b1 :: b2 :: b3 :: rest =>
    match decodeWord (wordOfBytes b0 b1 b2 b3) with
    | .ok i => .ok (i, rest)
    | .error e => .error e
  | _ => .error .truncated

/-! ### Encoding -/

/-- The opcode byte of an instruction (30_encoding.md R84). -/
def Instr.opcode : Instr → Byte
  | .add _ _ _ => 0x00#8
  | .sub _ _ _ => 0x01#8
  | .mul _ _ _ => 0x02#8
  | .div _ _ _ => 0x03#8
  | .and _ _ _ => 0x04#8
  | .or _ _ _ => 0x05#8
  | .xor _ _ _ => 0x06#8
  | .not _ _ => 0x07#8
  | .shl _ _ _ => 0x08#8
  | .shr _ _ _ => 0x09#8
  | .eq _ _ _ => 0x0A#8
  | .neq _ _ _ => 0x0B#8
  | .gt _ _ _ => 0x0C#8
  | .lt _ _ _ => 0x0D#8
  | .ge _ _ _ => 0x0E#8
  | .le _ _ _ => 0x0F#8
  | .load _ _ => 0x10#8
  | .store _ _ => 0x11#8
  | .jump _ => 0x12#8
  | .jz _ => 0x13#8
  | .jnz _ => 0x14#8
  | .call _ => 0x15#8
  | .ret => 0x16#8
  | .push _ => 0x17#8
  | .pop _ => 0x18#8
  | .halt => 0x19#8
  | .out _ => 0x1A#8

/-- The four fields the assembler writes for an instruction: "unused slots hold 0" (30_encoding.md R82). -/
def Instr.fields (i : Instr) : Fields :=
  match i with
  | .add d s t | .sub d s t | .mul d s t | .div d s t | .and d s t | .or d s t | .xor d s t | .shl d s t | .shr d s t
  | .eq d s t | .neq d s t | .gt d s t | .lt d s t | .ge d s t | .le d s t => ⟨i.opcode, d, s, t⟩
  | .not d s => ⟨i.opcode, d, s, 0#8⟩
  | .load d imm => ⟨i.opcode, d, imm, 0#8⟩
  | .store v a => ⟨i.opcode, v, a, 0#8⟩
  | .jump x | .jz x | .jnz x | .call x | .push x | .pop x | .out x => ⟨i.opcode, x, 0#8, 0#8⟩
  | .ret | .halt => ⟨i.opcode, 0#8, 0#8, 0#8⟩

/-- The word of an instruction (30_encoding.md R82). -/
def encode (i : Instr) : Word := packFields i.fields

/-- The bytes of an instruction as memory holds them (20_memory.md R52, 30_encoding.md R105). -/
def encodeBytes (i : Instr) : List Byte := wordBytes (encode i)

/-- The bits of a word with this opcode that matter: the opcode byte and the used slots (30_encoding.md R84, R94). -/
def usedMask (opcode : Byte) : Word :=
  if opcode = 0x07#8 ∨ opcode = 0x10#8 ∨ opcode = 0x11#8 then 0xFFFFFF00#32
  else if opcode = 0x16#8 ∨ opcode = 0x19#8 then 0xFF000000#32
  else if 0x12 ≤ opcode.toNat ∧ opcode.toNat ≤ 0x1A then 0xFFFF0000#32
  else 0xFFFFFFFF#32

/-- The host's question about one row of spec/opcode_table.json: what the decoder reads from the word whose low `nbits`
bits are `w`, every bit above them 0, laid out little-endian as memory holds it. -/
def decodeTableWord (nbits w : Nat) : Option Instr :=
  match decodeBytes (wordBytes (BitVec.ofNat 32 (w % 2 ^ nbits))) with
  | .ok (i, _) => some i
  | .error _ => none

end Sys2Proof
end

