-- ==== Sys2Proof/Config.lean ====
section
/-! DEFINITION. What the spec fixes for the block (00_scope.md R5, 20_memory.md R51) and the named parameters a model
takes as arguments (00_scope.md R7). The parameters that decide what an instruction does are held, unchanged by every
step, in State (log entry 1); `MEM_INIT` is the argument of `State.resetWith` (log entry 2). -/

namespace Sys2Proof

/-- Memory size in bytes (00_scope.md R5). -/
@[simp] def memSize : Nat := 1024

/-- Base of the code segment, also the reset vector (20_memory.md R51, R62). -/
@[simp] def codeBase : Nat := 0x000

/-- End of the code segment, exclusive (20_memory.md R51); a fetch must start below it (R57). -/
@[simp] def codeEnd : Nat := 0x100

/-- The code segment's size, the largest program `load_code` accepts (00_scope.md R5, 70_reset_and_hazards.md R263). -/
@[simp] def codeSize : Nat := 256

/-- Base of the data segment, the end of the code segment (00_scope.md R5, 20_memory.md R51). No behaviour depends on it. -/
@[simp] def dataBase : Nat := 0x100

/-- End of the data segment, exclusive (00_scope.md R5, 20_memory.md R51). No behaviour depends on it. -/
@[simp] def dataEnd : Nat := 0x200

/-- Base of the stack segment (20_memory.md R51): the lowest `sp` (R58). -/
@[simp] def stackBase : Nat := 0x200

/-- End of the stack segment, exclusive (20_memory.md R51): `sp` of an empty stack (R58, 10_state.md R26). -/
@[simp] def stackEnd : Nat := 0x300

/-- Base of the heap segment (20_memory.md R51): the reset value of `hp` (10_state.md R27). -/
@[simp] def heapBase : Nat := 0x300

/-- End of the heap segment, exclusive (00_scope.md R5, 20_memory.md R51): the end of memory. -/
@[simp] def heapEnd : Nat := 0x400

/-- The four fixed segments (00_scope.md R5, R11; 20_memory.md R51). Only `code` (a fetch) and `stack` (the stack
instructions) constrain anything; Laws/Config.lean says that the four cover memory without overlap. -/
inductive Segment where
  | code
  | data
  | stack
  | heap
deriving DecidableEq, Repr

/-- A segment's first byte address (20_memory.md R51). -/
def segmentBase : Segment → Nat
  | .code => codeBase
  | .data => dataBase
  | .stack => stackBase
  | .heap => heapBase

/-- The byte address after a segment's last (20_memory.md R51). -/
def segmentEnd : Segment → Nat
  | .code => codeEnd
  | .data => dataEnd
  | .stack => stackEnd
  | .heap => heapEnd

/-- `COMPARE_DISPATCH` (00_scope.md R7, 92_eei_decisions.md D2): whether EQ to LE are dispatchable. -/
inductive CompareDispatch where
  /-- The default: EQ to LE raise `InvalidOpcode` (44_compare.md R180). -/
  | fault
  /-- EQ to LE execute (44_compare.md R181). -/
  | execute
deriving DecidableEq, Repr

/-- `SHIFT_AMOUNT` (00_scope.md R7, 92_eei_decisions.md D9): the distance of a shift by 32 or more. -/
inductive ShiftAmount where
  /-- The default: the distance modulo 32 (40_alu.md R120). -/
  | mask5
  /-- The distance itself: 32 or more shifts every bit out (40_alu.md R120). -/
  | saturate
deriving DecidableEq, Repr

/-- `MISALIGNED_POLICY` (00_scope.md R7, 92_eei_decisions.md D11): an unaligned data access. -/
inductive MisalignedPolicy where
  /-- The default: any in-bounds address is accessed (20_memory.md R56). -/
  | access
  /-- An address that is not a multiple of 4 raises `OutOfBounds` (20_memory.md R56). -/
  | fault
deriving DecidableEq, Repr

/-- The named parameters of 00_scope.md R7 that decide what a step does. -/
structure Params where
  compareDispatch : CompareDispatch
  shiftAmount : ShiftAmount
  misalignedPolicy : MisalignedPolicy
deriving DecidableEq, Repr

/-- The spec's default values (00_scope.md R7, table). -/
def Params.default : Params :=
  { compareDispatch := .fault, shiftAmount := .mask5, misalignedPolicy := .access }

end Sys2Proof
end

