-- ==== Sys2Proof/Machine/State.lean ====
section
/-! DEFINITION. The CPU state as plain data (10_state.md section 1, R20 to R42), the reasons a step can stop, and the
state after reset (70_reset_and_hazards.md R260). -/

namespace Sys2Proof.Machine

/-- The four run-time fault codes (60_exceptions.md R230, values 1 to 4): the only codes `fault` can hold. -/
inductive RunFault where
  | outOfBounds
  | invalidRegister
  | divideByZero
  | invalidOpcode
deriving DecidableEq, Repr

/-- The whole fault taxonomy (60_exceptions.md R230): `none`, the four run-time codes, the two of the assembler and the
one of `load_code`. The last three never appear in `fault`, which the type of `State.fault` says. -/
inductive FaultCode where
  | none
  | outOfBounds
  | invalidRegister
  | divideByZero
  | invalidOpcode
  | unresolvedLabel
  | unknownMnemonic
  | programTooLarge
deriving DecidableEq, Repr

/-- The register file: four general 32-bit registers, none hard-wired, none aliased (10_state.md R20). -/
structure RegFile where
  r0 : Word
  r1 : Word
  r2 : Word
  r3 : Word
deriving DecidableEq, Repr

/-- The three single-bit flags `Z`, `N`, `O` (10_state.md R28). -/
structure Flags where
  z : Bool
  n : Bool
  o : Bool
deriving DecidableEq, Repr

/-- The memory (20_memory.md R50) as address and byte pairs in one canonical form, `Memory.wf` of Machine/Ops.lean. -/
structure Memory where
  cells : List Host.Cell
deriving DecidableEq, Repr

/-- The whole CPU state. Every field but `params` is an element of 10_state.md section 1; `params` is the model's own
(00_scope.md R7: "a model may take the value as an argument"; log entry 1) and no step changes it. -/
structure State where
  regs : RegFile
  pc : Word
  sp : Word
  hp : Word
  flags : Flags
  halted : Bool
  fault : Option RunFault
  mem : Memory
  out : List (Fin 4 × Word)
  params : Params
deriving DecidableEq, Repr

/-- Why the MACHINE has no next state. A run-time fault of the spec is no such thing: taking it is a next state
(60_exceptions.md R233, log entry 4). -/
inductive Fault where
  /-- Raised by `step` alone, in a state with `halted = 1`: the engine has no step, it does not fetch and no state
  changes (41_execution_cycle.md R140). Safe: no claim about a next state follows (log entry 3). -/
  | halted
deriving DecidableEq, Repr

/-- Why an instruction has no meaning in the model. -/
inductive Refusal where
  /-- The instruction has no meaning yet; raised by an arm of `exec` only. Every instruction has its meaning, so no arm
  raises it. Safe. -/
  | notModelled (mnemonic : String)
deriving DecidableEq, Repr

/-- The machine right after reset (70_reset_and_hazards.md R260), with the default parameters (00_scope.md R7) and
`MEM_INIT` zero in every byte (R262): nothing is listed in memory. -/
def State.reset : State :=
  { regs := { r0 := 0#32, r1 := 0#32, r2 := 0#32, r3 := 0#32 }
    pc := 0x00000000#32
    sp := 0x00000300#32
    hp := 0x00000300#32
    flags := { z := false, n := false, o := false }
    halted := false
    fault := none
    mem := { cells := [] }
    out := []
    params := Params.default }

end Sys2Proof.Machine
end

