-- ==== Sys2Proof/Machine/Ops.lean ====
section
/-! DEFINITION. The named operations every meaning is made of: memory and its bounds (20_memory.md R50 to R58), the
register file (10_state.md R20), the stack (20_memory.md R58), taking a fault (60_exceptions.md R233) and ending an
instruction all-or-nothing (00_scope.md R10). -/

namespace Sys2Proof.Machine

/-- What an instruction's execution answers. -/
abbrev Result := Host.Outcome State Fault Refusal

/-! ### Memory (20_memory.md) -/

/-- What an address that memory does not list reads as: the spec's default `MEM_INIT` byte, zero
(20_memory.md R50, 92_eei_decisions.md D12, log entry 2). -/
def unlistedByte : Byte := 0x00#8

/-- The byte a list of cells holds at an address. -/
def findByte : List Host.Cell → Nat → Byte
  | [], _ => unlistedByte
  | c :: rest, a => if c.1 = a then c.2 else findByte rest a

/-- A cell put before the first cell of a greater address. -/
def insertCell (a : Nat) (v : Byte) : List Host.Cell → List Host.Cell
  | [] => [(a, v)]
  | c :: rest => if a < c.1 then (a, v) :: c :: rest else c :: insertCell a v rest

/-- `mem[a]` (20_memory.md R50). A byte never written reads its `MEM_INIT` value (R64). -/
def Memory.readByte (m : Memory) (a : Nat) : Byte := findByte m.cells a

/-- `mem[a] <- v`. The cell of `a` is taken out, and put in again at its place unless `v` is what an unlisted address
reads as: so equal memories are equal lists. -/
def Memory.writeByte (m : Memory) (a : Nat) (v : Byte) : Memory :=
  let kept := m.cells.filter fun c => c.1 ≠ a
  { cells := if v = unlistedByte then kept else insertCell a v kept }

/-- The canonical form: addresses strictly rising, every one below 1024 (20_memory.md R62), no cell equal to what an
unlisted address reads as. -/
abbrev Memory.wf (m : Memory) : Prop :=
  m.cells.Pairwise (fun c d => c.1 < d.1) ∧ ∀ c ∈ m.cells, c.1 < memSize ∧ c.2 ≠ unlistedByte

/-- The word at `a`, little-endian (20_memory.md R52). -/
def Memory.readWord (m : Memory) (a : Nat) : Word :=
  wordOfBytes (m.readByte a) (m.readByte (a + 1)) (m.readByte (a + 2)) (m.readByte (a + 3))

/-- The four byte writes of 20_memory.md R52, lowest address first. -/
def Memory.writeWord (m : Memory) (a : Nat) (v : Word) : Memory :=
  (((m.writeByte a (wordByte v 0)).writeByte (a + 1) (wordByte v 1)).writeByte (a + 2) (wordByte v 2)).writeByte (a + 3)
    (wordByte v 3)

/-- A word access at `addr` is in bounds: the exact sum `uint(addr) + 4 <= 1024` (20_memory.md R53). -/
def inBounds (addr : Word) : Bool := decide (addr.toNat + 4 ≤ memSize)

/-- `MemRead(addr, 4)` (20_memory.md R54). -/
def memRead (m : Memory) (addr : Word) : Except RunFault Word :=
  if inBounds addr then .ok (m.readWord addr.toNat) else .error .outOfBounds

/-- `MemWrite(addr, 4, v)` (20_memory.md R55). -/
def memWrite (m : Memory) (addr : Word) (v : Word) : Except RunFault Memory :=
  if inBounds addr then .ok (m.writeWord addr.toNat v) else .error .outOfBounds

/-- The address of a data access is acceptable under `MISALIGNED_POLICY` (20_memory.md R56): always under `Access`, a
multiple of 4 under `Fault`. Fetch and the stack do not ask this (20_memory.md R57, log entry 6). -/
def alignmentOk (p : Params) (addr : Word) : Bool :=
  match p.misalignedPolicy with
  | .access => true
  | .fault => decide (addr.toNat % 4 = 0)

/-- A data read: the alignment check of 20_memory.md R56, then `MemRead`. Only the unused operand modes make one. -/
def dataRead (s : State) (addr : Word) : Except RunFault Word :=
  if alignmentOk s.params addr then memRead s.mem addr else .error .outOfBounds

/-- A data write: alignment and then bounds (20_memory.md R56, 60_exceptions.md R234 point 5). -/
def dataWrite (s : State) (addr : Word) (v : Word) : Except RunFault Memory :=
  if alignmentOk s.params addr then memWrite s.mem addr v else .error .outOfBounds

/-! ### Registers (10_state.md R20) -/

/-- `x[i]` (00_scope.md R9). -/
def RegFile.get (r : RegFile) : Fin 4 → Word
  | 0 => r.r0
  | 1 => r.r1
  | 2 => r.r2
  | 3 => r.r3

/-- `x[i] <- v` (00_scope.md R9). -/
def RegFile.set (r : RegFile) (i : Fin 4) (v : Word) : RegFile :=
  match i with
  | 0 => { r with r0 := v }
  | 1 => { r with r1 := v }
  | 2 => { r with r2 := v }
  | 3 => { r with r3 := v }

/-- The machine after `x[i] <- v`. -/
def State.setReg (s : State) (i : Fin 4) (v : Word) : State := { s with regs := s.regs.set i v }

/-- The index check that guards every place an operand byte names a register, sources and destinations alike
(30_encoding.md R88, 92_eei_decisions.md D5). -/
def regIndex (op : Byte) : Except RunFault (Fin 4) :=
  if h : op.toNat < 4 then .ok ⟨op.toNat, h⟩ else .error .invalidRegister

/-! ### The stack (20_memory.md R58, 47_stack.md R212) -/

/-- `PushOK(sp)`: `uint(sp) - 4 >= 0x200`, exactly (20_memory.md R58). -/
def pushOk (sp : Word) : Bool := decide (stackBase + 4 ≤ sp.toNat)

/-- `PopOK(sp)`: `uint(sp) + 4 <= 0x300`, exactly (20_memory.md R58). -/
def popOk (sp : Word) : Bool := decide (sp.toNat + 4 ≤ stackEnd)

/-- A push of PUSH and CALL: the range check, then `sp <- sp - 4` and the word written there (47_stack.md R210,
46_control_transfer.md R203). A failing write leaves `sp` as it was (00_scope.md R10, log entry 5). -/
def pushWord (s : State) (v : Word) : Except RunFault State :=
  if pushOk s.sp then
    match memWrite s.mem (s.sp - 4#32) v with
    | .ok m => .ok { s with sp := s.sp - 4#32, mem := m }
    | .error f => .error f
  else .error .outOfBounds

/-- A pop of POP and RET: the range check, the word at `sp`, then `sp <- sp + 4`; memory keeps the word
(47_stack.md R211, 46_control_transfer.md R204). -/
def popWord (s : State) : Except RunFault (Word × State) :=
  if popOk s.sp then
    match memRead s.mem s.sp with
    | .ok v => .ok (v, { s with sp := s.sp + 4#32 })
    | .error f => .error f
  else .error .outOfBounds

/-! ### Taking a fault (60_exceptions.md R233)

A fault is the block's only exception. It has no vector, no handler and no saved context (R236), and there is no return
from it (R237): Halted is terminal. -/

/-- `raise F`: `halted <- 1`, `fault <- F`, and nothing else (60_exceptions.md R233). -/
def State.raise (s : State) (f : RunFault) : State := { s with halted := true, fault := some f }

/-- The end of an instruction that made all its checks before any write (00_scope.md R10): its state, or, where a check
failed, the fault raised from the state before the instruction. -/
def conclude (s : State) (r : Except RunFault State) : Result :=
  match r with
  | .ok t => .next t
  | .error f => .next (s.raise f)

/-- The code of a run-time fault in the whole taxonomy (60_exceptions.md R230). -/
def RunFault.code : RunFault → FaultCode
  | .outOfBounds => .outOfBounds
  | .invalidRegister => .invalidRegister
  | .divideByZero => .divideByZero
  | .invalidOpcode => .invalidOpcode

/-- The numeric values of the codes, the spec's own numbering (60_exceptions.md R230, 92_eei_decisions.md D4). -/
def FaultCode.value : FaultCode → Nat
  | .none => 0
  | .outOfBounds => 1
  | .invalidRegister => 2
  | .divideByZero => 3
  | .invalidOpcode => 4
  | .unresolvedLabel => 5
  | .unknownMnemonic => 6
  | .programTooLarge => 7

/-- The code the host reads in `fault` (10_state.md R32). -/
def State.faultCode (s : State) : FaultCode :=
  match s.fault with
  | some f => f.code
  | none => .none

end Sys2Proof.Machine
end

