-- ==== Sys2Proof/Machine/Cycle.lean ====
section
/-! DEFINITION. The fetch-decode-execute cycle (41_execution_cycle.md R140 to R151), over the dispatch it is given. -/

namespace Sys2Proof.Machine

/-- The fetch check of 41_execution_cycle.md R141 passes: `pc` lies in the code segment. No alignment is asked
(20_memory.md R57). -/
def fetchOk (pc : Word) : Bool := decide (pc.toNat < codeEnd)

/-- The fetch stage: the check on `pc` alone, then the word at `pc` (41_execution_cycle.md R141, R142). -/
def fetch (s : State) : Except RunFault Word := if fetchOk s.pc then memRead s.mem s.pc else .error .outOfBounds

/-- The decode stage: a byte with no instruction is `InvalidOpcode`, before any operand is resolved
(41_execution_cycle.md R143, 48_system.md R222). -/
def decodeStage (w : Word) : Except RunFault Instr :=
  match decodeWord w with
  | .ok i => .ok i
  | .error _ => .error .invalidOpcode

/-- The pc advance, a comparison of values and no per-opcode flag: not after a halt, and only if `pc` still equals its
value `pc0` at the start of the step (41_execution_cycle.md R145, R146). -/
def advance (pc0 : Word) (t : State) : State := if !t.halted && t.pc == pc0 then { t with pc := pc0 + 4#32 } else t

/-- The execute stage and the advance (41_execution_cycle.md R144 to R146). -/
def executeStage (execute : Instr → State → Result) (s : State) (i : Instr) : Result :=
  match execute i s with
  | .next t => .next (advance s.pc t)
  | .fault r => .fault r
  | .refused r => .refused r

/-- One step (41_execution_cycle.md R150). A halted engine has none (R140). -/
def cycle (execute : Instr → State → Result) (s : State) : Result :=
  if s.halted then .fault .halted
  else
    match fetch s with
    | .error f => .next (s.raise f)
    | .ok w =>
      match decodeStage w with
      | .error f => .next (s.raise f)
      | .ok i => executeStage execute s i

/-- The instruction word `w` stored where the next fetch reads it, at `pc` (20_memory.md R52). An address with no four
bytes stores nothing: a fetch there faults anyway. -/
def placeWord (s : State) (w : Word) : State :=
  match memWrite s.mem s.pc w with
  | .ok m => { s with mem := m }
  | .error _ => s

end Sys2Proof.Machine
end

