-- ==== Sys2Proof/Machine/Flags.lean ====
section
/-! DEFINITION. The flag computations: `SetFlags` and the two overflow rules (40_alu.md R110 to R114). -/

namespace Sys2Proof.Machine

/-- The flags of a result: `Z` says it is zero, `N` is its bit 31, `O` is given (40_alu.md R110). -/
def flagsOf (r : Word) (ovf : Bool) : Flags := { z := decide (r = 0#32), n := r.msb, o := ovf }

/-- `SetFlags(r, ovf)`: all three flags, never only some of them (40_alu.md R110). -/
def State.setFlags (s : State) (r : Word) (ovf : Bool) : State := { s with flags := flagsOf r ovf }

/-- Overflow of a sum: the operands share a sign that the result does not have (40_alu.md R111, R112). -/
def addOverflow (a b : Word) : Bool :=
  let r := a + b
  (!a.msb && !b.msb && r.msb) || (a.msb && b.msb && !r.msb)

/-- Overflow of a difference (40_alu.md R113, R114). -/
def subOverflow (a b : Word) : Bool :=
  let r := a - b
  (!a.msb && b.msb && r.msb) || (a.msb && !b.msb && !r.msb)

end Sys2Proof.Machine
end

