-- ==== Sys2Proof/Machine/Alu.lean ====
section
/-! DEFINITION. The ALU (40_alu.md): functions that "compute a result and recompute the CPU's flag register as a side
effect". The engine calls `aluAdd`, `aluSub` and, under `COMPARE_DISPATCH = Execute`, the six comparisons (R122); the
others are modelled as the spec defines them although no instruction calls them. -/

namespace Sys2Proof.Machine

/-- A result with its flags written: the pair every ALU function but a division by zero answers (40_alu.md R110). -/
def withFlags (s : State) (r : Word) (ovf : Bool) : Word × State := (r, s.setFlags r ovf)

/-- `alu_add` (40_alu.md R111). -/
def aluAdd (s : State) (a b : Word) : Word × State := withFlags s (a + b) (addOverflow a b)

/-- `alu_sub` (40_alu.md R113). -/
def aluSub (s : State) (a b : Word) : Word × State := withFlags s (a - b) (subOverflow a b)

/-- `alu_mul`: the low 32 bits of the signed product, overflow never detected (40_alu.md R115). -/
def aluMul (s : State) (a b : Word) : Word × State := withFlags s (BitVec.ofInt 32 (a.toInt * b.toInt)) false

/-- `alu_div`: the signed quotient rounded toward zero; a zero divisor halts the engine with `DivideByZero`, returns 0
and writes no flag (40_alu.md R116, 92_eei_decisions.md D24). -/
def aluDiv (s : State) (a b : Word) : Word × State :=
  if b = 0#32 then (0#32, s.raise .divideByZero) else withFlags s (BitVec.ofInt 32 (a.toInt.tdiv b.toInt)) false

/-- `alu_and` (40_alu.md R117). -/
def aluAnd (s : State) (a b : Word) : Word × State := withFlags s (a &&& b) false

/-- `alu_or` (40_alu.md R117). -/
def aluOr (s : State) (a b : Word) : Word × State := withFlags s (a ||| b) false

/-- `alu_xor` (40_alu.md R117). -/
def aluXor (s : State) (a b : Word) : Word × State := withFlags s (a ^^^ b) false

/-- `alu_not`, the one-operand function (40_alu.md R118). -/
def aluNot (s : State) (a : Word) : Word × State := withFlags s (~~~a) false

/-- `ShAmt(b)`: the shift distance under `SHIFT_AMOUNT` (40_alu.md R120). -/
def shiftDistance (p : Params) (b : Word) : Nat :=
  match p.shiftAmount with
  | .mask5 => b.toNat % 32
  | .saturate => b.toNat

/-- A left shift with zeros in at the bottom; a distance of 32 or more shifts every bit out (40_alu.md R120). The test
only keeps a large distance from being computed as a power of two. -/
def shiftLeft (a : Word) (distance : Nat) : Word := if 32 ≤ distance then 0#32 else a <<< distance

/-- A logical right shift, `floor(uint(a) / 2^distance)` (43_logic_shift.md R175). -/
def shiftRight (a : Word) (distance : Nat) : Word := if 32 ≤ distance then 0#32 else a >>> distance

/-- An arithmetic right shift; a distance of 32 or more leaves 32 copies of bit 31 (40_alu.md R119, R120). -/
def shiftRightArith (a : Word) (distance : Nat) : Word := a.sshiftRight (min distance 32)

/-- `alu_shl` (40_alu.md R119). -/
def aluShl (s : State) (a b : Word) : Word × State := withFlags s (shiftLeft a (shiftDistance s.params b)) false

/-- `alu_shr`, arithmetic because the ALU's operands are signed (40_alu.md R119, 92_eei_decisions.md D24). -/
def aluShr (s : State) (a b : Word) : Word × State := withFlags s (shiftRightArith a (shiftDistance s.params b)) false

/-- The 1 or 0 of a comparison (40_alu.md R121). -/
def truth (b : Bool) : Word := if b then 1#32 else 0#32

/-- `alu_eq` (40_alu.md R121). -/
def aluEq (s : State) (a b : Word) : Word × State := withFlags s (truth (decide (a = b))) false

/-- `alu_neq` (40_alu.md R121). -/
def aluNeq (s : State) (a b : Word) : Word × State := withFlags s (truth (decide (a ≠ b))) false

/-- `alu_gt`, signed (40_alu.md R121, 92_eei_decisions.md D28). -/
def aluGt (s : State) (a b : Word) : Word × State := withFlags s (truth (decide (a.toInt > b.toInt))) false

/-- `alu_lt`, signed (40_alu.md R121). -/
def aluLt (s : State) (a b : Word) : Word × State := withFlags s (truth (decide (a.toInt < b.toInt))) false

/-- `alu_ge`, signed (40_alu.md R121). -/
def aluGe (s : State) (a b : Word) : Word × State := withFlags s (truth (decide (a.toInt ≥ b.toInt))) false

/-- `alu_le`, signed (40_alu.md R121). -/
def aluLe (s : State) (a b : Word) : Word × State := withFlags s (truth (decide (a.toInt ≤ b.toInt))) false

/-- An ALU function as the engine calls it (40_alu.md R122): none of those it calls can fault (R123). -/
def viaAlu (f : State → Word → Word → Word × State) (s : State) (a b : Word) : Except RunFault (Word × State) :=
  .ok (f s a b)

end Sys2Proof.Machine
end

