-- ==== Sys2Proof/Machine/Operands.lean ====
section
/-! DEFINITION. The addressing-mode table and the operand resolver (30_encoding.md R86 to R93), every mode of it. -/

namespace Sys2Proof.Machine

/-- The fixed addressing-mode table, keyed by the opcode byte (30_encoding.md R86). It is total: an unassigned byte gets
Register modes. -/
def modeTable (opcode : Byte) : Slot → Mode :=
  if opcode = 0x10#8 then
    fun slot => match slot with
      | .op0 => .register
      | .op1 => .immediate
      | .op2 => .immediate
  else if opcode = 0x12#8 ∨ opcode = 0x13#8 ∨ opcode = 0x14#8 ∨ opcode = 0x15#8 then fun _ => .immediate
  else fun _ => .register

/-- Register mode: the index check, then the register (30_encoding.md R88). -/
def resolveRegister (s : State) (op : Byte) : Except RunFault Word :=
  match regIndex op with
  | .ok i => .ok (s.regs.get i)
  | .error f => .error f

/-- Indirect mode: a pointer, then the word it points to (30_encoding.md R90). -/
def resolveIndirect (s : State) (op : Byte) : Except RunFault Word :=
  match dataRead s (op.setWidth 32) with
  | .ok p => dataRead s p
  | .error f => .error f

/-- Indexed mode: the high nibble names a base register, the low nibble is an offset; the sum is modulo 2^32
(30_encoding.md R91, 92_eei_decisions.md D23). -/
def resolveIndexed (s : State) (op : Byte) : Except RunFault Word :=
  match regIndex ((op.extractLsb' 4 4).setWidth 8) with
  | .ok base => dataRead s (s.regs.get base + (op.extractLsb' 0 4).setWidth 32)
  | .error f => .error f

/-- `Resolve(op, mode)` (30_encoding.md R87 to R91). No opcode selects Memory, Indirect or Indexed (R92). -/
def resolve (s : State) (op : Byte) (mode : Mode) : Except RunFault Word :=
  match mode with
  | .immediate => .ok (op.setWidth 32)
  | .register => resolveRegister s op
  | .memory => dataRead s (op.setWidth 32)
  | .indirect => resolveIndirect s op
  | .indexed => resolveIndexed s op

/-- An operand slot of an instruction, resolved with its mode from the table (30_encoding.md R93). -/
def resolveSlot (s : State) (opcode : Byte) (slot : Slot) (op : Byte) : Except RunFault Word :=
  resolve s op (modeTable opcode slot)

/-- An instruction with two register sources and a destination: op1 and op2 are resolved in slot order, the destination
index is checked, then the operation runs and its result is written (42_arithmetic.md, 60_exceptions.md R234). The
operation may fault or write flags; its sources are read before the destination is written (70_reset_and_hazards.md R272). -/
def binaryResult (s : State) (opcode : Byte) (f : State → Word → Word → Except RunFault (Word × State)) (d s1 s2 : Byte) :
    Except RunFault State := do
  let a ← resolveSlot s opcode .op1 s1
  let b ← resolveSlot s opcode .op2 s2
  let i ← regIndex d
  let (r, t) ← f s a b
  return t.setReg i r

/-- The same with one register source in op1 (43_logic_shift.md R173). -/
def unaryResult (s : State) (opcode : Byte) (f : Word → Word) (d s1 : Byte) : Except RunFault State := do
  let a ← resolveSlot s opcode .op1 s1
  let i ← regIndex d
  return s.setReg i (f a)

/-- An operation the engine "computes directly": no fault of its own, no flag (40_alu.md R122). -/
def direct (f : Word → Word → Word) (s : State) (a b : Word) : Except RunFault (Word × State) := .ok (f a b, s)

end Sys2Proof.Machine
end

