-- ==== Sys2Proof/Machine/Arith.lean ====
section
/-! DEFINITION. ADD, SUB, MUL and DIV (42_arithmetic.md R160 to R164). -/

namespace Sys2Proof.Machine

/-- ADD: `x[d] <- x[s] + x[t]`, writes Z, N and O (42_arithmetic.md R160). -/
def execAdd (d s1 s2 : Byte) (s : State) : Result := conclude s (binaryResult s 0x00#8 (viaAlu aluAdd) d s1 s2)

/-- SUB: `x[d] <- x[s] - x[t]`, writes Z, N and O (42_arithmetic.md R161). -/
def execSub (d s1 s2 : Byte) (s : State) : Result := conclude s (binaryResult s 0x01#8 (viaAlu aluSub) d s1 s2)

/-- MUL: the low 32 bits of the product, computed directly, no flag (42_arithmetic.md R162). -/
def execMul (d s1 s2 : Byte) (s : State) : Result :=
  conclude s (binaryResult s 0x02#8 (direct fun a b => BitVec.ofNat 32 (a.toNat * b.toNat)) d s1 s2)

/-- The engine's own division: unsigned, rounded down; a zero divisor faults and stores nothing
(42_arithmetic.md R163, 92_eei_decisions.md D8). -/
def divide (s : State) (a b : Word) : Except RunFault (Word × State) :=
  if b = 0#32 then .error .divideByZero else .ok (BitVec.ofNat 32 (a.toNat / b.toNat), s)

/-- DIV (42_arithmetic.md R163). -/
def execDiv (d s1 s2 : Byte) (s : State) : Result := conclude s (binaryResult s 0x03#8 divide d s1 s2)

end Sys2Proof.Machine
end

