-- ==== Sys2Proof/Machine/Compare.lean ====
section
/-! DEFINITION. EQ, NEQ, GT, LT, GE and LE under both values of `COMPARE_DISPATCH` (44_compare.md R180 to R187). -/

namespace Sys2Proof.Machine

/-- A comparison instruction: `InvalidOpcode` before any operand is resolved under `Fault` (44_compare.md R180,
41_execution_cycle.md R143), `CompareExec(f)` under `Execute` (44_compare.md R181). -/
def compareExec (s : State) (opcode : Byte) (f : State → Word → Word → Word × State) (d s1 s2 : Byte) : Result :=
  match s.params.compareDispatch with
  | .fault => .next (s.raise .invalidOpcode)
  | .execute => conclude s (binaryResult s opcode (viaAlu f) d s1 s2)

/-- EQ (44_compare.md R182). -/
def execEq (d s1 s2 : Byte) (s : State) : Result := compareExec s 0x0A#8 aluEq d s1 s2

/-- NEQ (44_compare.md R183). -/
def execNeq (d s1 s2 : Byte) (s : State) : Result := compareExec s 0x0B#8 aluNeq d s1 s2

/-- GT, signed (44_compare.md R184). -/
def execGt (d s1 s2 : Byte) (s : State) : Result := compareExec s 0x0C#8 aluGt d s1 s2

/-- LT, signed (44_compare.md R185). -/
def execLt (d s1 s2 : Byte) (s : State) : Result := compareExec s 0x0D#8 aluLt d s1 s2

/-- GE, signed (44_compare.md R186). -/
def execGe (d s1 s2 : Byte) (s : State) : Result := compareExec s 0x0E#8 aluGe d s1 s2

/-- LE, signed (44_compare.md R187). -/
def execLe (d s1 s2 : Byte) (s : State) : Result := compareExec s 0x0F#8 aluLe d s1 s2

end Sys2Proof.Machine
end

