-- ==== Sys2Proof/Machine/Control.lean ====
section
/-! DEFINITION. JUMP, JZ, JNZ, CALL and RET (46_control_transfer.md R200 to R205). A meaning writes `pc`, or leaves it;
the cycle then adds 4 only if `pc` still equals its value at the start of the step (41_execution_cycle.md R146). -/

namespace Sys2Proof.Machine

/-- `pc <- Resolve(op0, Immediate)`, the target of a jump taken (46_control_transfer.md R200). -/
def jumpTo (s : State) (opcode tgt : Byte) : Except RunFault State := do
  let t ← resolveSlot s opcode .op0 tgt
  return { s with pc := t }

/-- JUMP (46_control_transfer.md R200). -/
def execJump (tgt : Byte) (s : State) : Result := conclude s (jumpTo s 0x12#8 tgt)

/-- JZ: taken if `Z = 1` (46_control_transfer.md R201). -/
def execJz (tgt : Byte) (s : State) : Result := conclude s (if s.flags.z then jumpTo s 0x13#8 tgt else .ok s)

/-- JNZ: taken if `Z = 0` (46_control_transfer.md R202). -/
def execJnz (tgt : Byte) (s : State) : Result := conclude s (if s.flags.z then .ok s else jumpTo s 0x14#8 tgt)

/-- CALL: the target is read from a register although its mode tag is Immediate (30_encoding.md R93, 90_conflicts.md
C12); the CALL's own address is pushed (46_control_transfer.md R203). -/
def callResult (s : State) (s1 : Byte) : Except RunFault State := do
  let t ← resolve s s1 .register
  let pushed ← pushWord s s.pc
  return { pushed with pc := t }

/-- CALL (46_control_transfer.md R203). -/
def execCall (s1 : Byte) (s : State) : Result := conclude s (callResult s s1)

/-- RET: a word popped into `pc` (46_control_transfer.md R204). -/
def retResult (s : State) : Except RunFault State := do
  let (t, popped) ← popWord s
  return { popped with pc := t }

/-- RET (46_control_transfer.md R204). -/
def execRet (s : State) : Result := conclude s (retResult s)

end Sys2Proof.Machine
end

