-- ==== Sys2Proof/Machine/Logic.lean ====
section
/-! DEFINITION. AND, OR, XOR, NOT, SHL and SHR (43_logic_shift.md R170 to R176): computed directly, no flag. -/

namespace Sys2Proof.Machine

/-- AND (43_logic_shift.md R170). -/
def execAnd (d s1 s2 : Byte) (s : State) : Result := conclude s (binaryResult s 0x04#8 (direct fun a b => a &&& b) d s1 s2)

/-- OR (43_logic_shift.md R171). -/
def execOr (d s1 s2 : Byte) (s : State) : Result := conclude s (binaryResult s 0x05#8 (direct fun a b => a ||| b) d s1 s2)

/-- XOR (43_logic_shift.md R172). -/
def execXor (d s1 s2 : Byte) (s : State) : Result := conclude s (binaryResult s 0x06#8 (direct fun a b => a ^^^ b) d s1 s2)

/-- NOT: reads op1 and ignores op2 (43_logic_shift.md R173, 92_eei_decisions.md D21). -/
def execNot (d s1 : Byte) (s : State) : Result := conclude s (unaryResult s 0x07#8 (fun a => ~~~a) d s1)

/-- SHL: zeros in at bit 0, the distance by `ShAmt` (43_logic_shift.md R174). -/
def execShl (d s1 s2 : Byte) (s : State) : Result :=
  conclude s (binaryResult s 0x08#8 (direct fun a b => shiftLeft a (shiftDistance s.params b)) d s1 s2)

/-- SHR: logical, zeros in at bit 31, the distance by `ShAmt` (43_logic_shift.md R175, 92_eei_decisions.md D8). -/
def execShr (d s1 s2 : Byte) (s : State) : Result :=
  conclude s (binaryResult s 0x09#8 (direct fun a b => shiftRight a (shiftDistance s.params b)) d s1 s2)

end Sys2Proof.Machine
end

