-- ==== Sys2Proof/Machine/Stack.lean ====
section
/-! DEFINITION. PUSH and POP (47_stack.md R210 to R212). -/

namespace Sys2Proof.Machine

/-- PUSH: the register is resolved, then pushed (47_stack.md R210). -/
def pushResult (s : State) (s1 : Byte) : Except RunFault State := do
  let v ← resolveSlot s 0x17#8 .op0 s1
  pushWord s v

/-- PUSH (47_stack.md R210). -/
def execPush (s1 : Byte) (s : State) : Result := conclude s (pushResult s s1)

/-- POP: the destination index is checked, then the stack range (47_stack.md R211). -/
def popResult (s : State) (d : Byte) : Except RunFault State := do
  let i ← regIndex d
  let (v, popped) ← popWord s
  return popped.setReg i v

/-- POP (47_stack.md R211). -/
def execPop (d : Byte) (s : State) : Result := conclude s (popResult s d)

end Sys2Proof.Machine
end

