-- ==== Sys2Proof/Machine/System.lean ====
section
/-! DEFINITION. HALT and OUT (48_system.md R220, R221). -/

namespace Sys2Proof.Machine

/-- HALT: `halted <- 1`, and `fault` stays as it is (48_system.md R220). -/
def execHalt (s : State) : Result := .next { s with halted := true }

/-- OUT: the index is checked, then (index, value) is appended to the output trace (48_system.md R221,
10_state.md R42). -/
def outResult (s : State) (s1 : Byte) : Except RunFault State := do
  let i ← regIndex s1
  return { s with out := s.out ++ [(i, s.regs.get i)] }

/-- OUT (48_system.md R221). -/
def execOut (s1 : Byte) (s : State) : Result := conclude s (outResult s s1)

end Sys2Proof.Machine
end

