-- ==== Sys2Proof/Machine/Transfer.lean ====
section
/-! DEFINITION. LOAD and STORE (45_load_store.md R190 to R192). -/

namespace Sys2Proof.Machine

/-- LOAD: the literal operand, zero-extended; neither memory nor a register is read (45_load_store.md R190). -/
def loadResult (s : State) (d imm : Byte) : Except RunFault State := do
  let i ← regIndex d
  let v ← resolveSlot s 0x10#8 .op1 imm
  return s.setReg i v

/-- LOAD (45_load_store.md R190). -/
def execLoad (d imm : Byte) (s : State) : Result := conclude s (loadResult s d imm)

/-- STORE: the word of the value register at the address in the address register (45_load_store.md R191). -/
def storeResult (s : State) (v a : Byte) : Except RunFault State := do
  let value ← resolveSlot s 0x11#8 .op0 v
  let addr ← resolveSlot s 0x11#8 .op1 a
  let m ← dataWrite s addr value
  return { s with mem := m }

/-- STORE (45_load_store.md R191). -/
def execStore (v a : Byte) (s : State) : Result := conclude s (storeResult s v a)

end Sys2Proof.Machine
end

