-- ==== Sys2Proof/Machine/Dispatch.lean ====
section
/-! DEFINITION. Dispatch: one arm per instruction (41_execution_cycle.md R144). -/

namespace Sys2Proof.Machine

/-- `Execute(opcode, op0, op1, op2)` (41_execution_cycle.md R144, R150). -/
def exec (i : Instr) (s : State) : Host.Outcome State Fault Refusal :=
  match i with
  | .add d s1 s2 => Sys2Proof.Machine.execAdd d s1 s2 s
  | .sub d s1 s2 => Sys2Proof.Machine.execSub d s1 s2 s
  | .mul d s1 s2 => Sys2Proof.Machine.execMul d s1 s2 s
  | .div d s1 s2 => Sys2Proof.Machine.execDiv d s1 s2 s
  | .and d s1 s2 => Sys2Proof.Machine.execAnd d s1 s2 s
  | .or d s1 s2 => Sys2Proof.Machine.execOr d s1 s2 s
  | .xor d s1 s2 => Sys2Proof.Machine.execXor d s1 s2 s
  | .not d s1 => Sys2Proof.Machine.execNot d s1 s
  | .shl d s1 s2 => Sys2Proof.Machine.execShl d s1 s2 s
  | .shr d s1 s2 => Sys2Proof.Machine.execShr d s1 s2 s
  | .eq d s1 s2 => Sys2Proof.Machine.execEq d s1 s2 s
  | .neq d s1 s2 => Sys2Proof.Machine.execNeq d s1 s2 s
  | .gt d s1 s2 => Sys2Proof.Machine.execGt d s1 s2 s
  | .lt d s1 s2 => Sys2Proof.Machine.execLt d s1 s2 s
  | .ge d s1 s2 => Sys2Proof.Machine.execGe d s1 s2 s
  | .le d s1 s2 => Sys2Proof.Machine.execLe d s1 s2 s
  | .load d imm => Sys2Proof.Machine.execLoad d imm s
  | .store v a => Sys2Proof.Machine.execStore v a s
  | .jump tgt => Sys2Proof.Machine.execJump tgt s
  | .jz tgt => Sys2Proof.Machine.execJz tgt s
  | .jnz tgt => Sys2Proof.Machine.execJnz tgt s
  | .call s1 => Sys2Proof.Machine.execCall s1 s
  | .ret => Sys2Proof.Machine.execRet s
  | .push s1 => Sys2Proof.Machine.execPush s1 s
  | .pop d => Sys2Proof.Machine.execPop d s
  | .halt => Sys2Proof.Machine.execHalt s
  | .out s1 => Sys2Proof.Machine.execOut s1 s

end Sys2Proof.Machine
end

