-- ==== Sys2Proof/Machine/Step.lean ====
section
/-! DEFINITION. The step: the cycle of Machine/Cycle.lean over `exec`. -/

namespace Sys2Proof.Machine

/-- One step of the engine: one whole instruction or one fetch fault (10_state.md R40, 41_execution_cycle.md R150). -/
def step (s : State) : Host.Outcome State Fault Refusal := cycle exec s

/-- `s` with the instruction whose low `nbits` bits are `w` stored where `step` fetches its next instruction. -/
def State.withFetchWord (s : State) (nbits w : Nat) : State := placeWord s (BitVec.ofNat 32 (w % 2 ^ nbits))

end Sys2Proof.Machine
end

