-- ==== Sys2Proof/Machine/Assembler.lean ====
section
/-! DEFINITION. The assembly text of 30_encoding.md R100 to R105. The assembler is outside the block (00_scope.md R3, R4):
no step uses this file. It stands here because the spec's programs are written in this notation. What its rules leave
open (white space, error names beyond the spec's two, the order of errors) is log entry 13. -/

namespace Sys2Proof.Machine

/-- An assembly-time error. The spec names two (00_scope.md R4, 60_exceptions.md R230); the others are the model's names
for lines the spec calls "an assembly error" (log entry 13). -/
inductive AsmError where
  /-- An operand names a label that is not defined (30_encoding.md R103). -/
  | unresolvedLabel
  /-- The first token of an instruction line is no mnemonic (30_encoding.md R102). -/
  | unknownMnemonic
  /-- The number of operand tokens differs from the mnemonic's (30_encoding.md R102, 92_eei_decisions.md D20). -/
  | operandCount
  /-- A token that is no register name, label or decimal literal (30_encoding.md R103, 92_eei_decisions.md D35). -/
  | badToken
  /-- A label defined twice (93_implementation_defined.md U23: an assembler should refuse the program). -/
  | duplicateLabel
deriving DecidableEq, Repr

/-- A source line after its comment is dropped (30_encoding.md R100, R101). -/
inductive Line where
  | blank
  | label (name : List Char)
  | instr (tokens : List (List Char))
deriving DecidableEq, Repr

/-- Leading and trailing white space stripped (30_encoding.md R100). -/
def trim (cs : List Char) : List Char :=
  ((cs.dropWhile Char.isWhitespace).reverse.dropWhile Char.isWhitespace).reverse

/-- What separates tokens: commas and white space (30_encoding.md R102). -/
def isSeparator (c : Char) : Bool := c == ',' || c.isWhitespace

/-- A text cut at every character that `sep` accepts. -/
def cutAt (sep : Char → Bool) : List Char → List (List Char)
  | [] => [[]]
  | c :: rest =>
    match cutAt sep rest with
    | [] => [[c]]
    | piece :: pieces => if sep c then [] :: piece :: pieces else (c :: piece) :: pieces

/-- The non-empty tokens of a line (30_encoding.md R102). -/
def tokensOf (cs : List Char) : List (List Char) := (cutAt isSeparator cs).filter fun t => !t.isEmpty

/-- One line read: from a `;` on it is a comment, empty it is skipped, ending in `:` it is a label, else an instruction
(30_encoding.md R100, R101). -/
def readLine (cs : List Char) : Line :=
  let body := trim (cs.takeWhile fun c => c != ';')
  match body.reverse with
  | [] => .blank
  | last :: before => if last == ':' then .label before.reverse else .instr (tokensOf body)

/-- The mnemonics with their opcode byte and operand count, in upper case only (30_encoding.md R84, R102,
92_eei_decisions.md D20, D36). -/
def mnemonicTable : List (String × Byte × Nat) :=
  [("ADD", 0x00#8, 3), ("SUB", 0x01#8, 3), ("MUL", 0x02#8, 3), ("DIV", 0x03#8, 3), ("AND", 0x04#8, 3), ("OR", 0x05#8, 3),
   ("XOR", 0x06#8, 3), ("NOT", 0x07#8, 2), ("SHL", 0x08#8, 3), ("SHR", 0x09#8, 3), ("EQ", 0x0A#8, 3), ("NEQ", 0x0B#8, 3),
   ("GT", 0x0C#8, 3), ("LT", 0x0D#8, 3), ("GE", 0x0E#8, 3), ("LE", 0x0F#8, 3), ("LOAD", 0x10#8, 2), ("STORE", 0x11#8, 2),
   ("JUMP", 0x12#8, 1), ("JZ", 0x13#8, 1), ("JNZ", 0x14#8, 1), ("CALL", 0x15#8, 1), ("RET", 0x16#8, 0), ("PUSH", 0x17#8, 1),
   ("POP", 0x18#8, 1), ("HALT", 0x19#8, 0), ("OUT", 0x1A#8, 1)]

/-- The row of a mnemonic, matched exactly as written (30_encoding.md R102). -/
def findMnemonic (name : List Char) : List (String × Byte × Nat) → Option (Byte × Nat)
  | [] => none
  | (m, row) :: rest => if m.toList = name then some row else findMnemonic name rest

/-- The value of decimal digits. -/
def decimalValue (ds : List Char) : Nat := ds.foldl (fun n c => 10 * n + (c.toNat - '0'.toNat)) 0

/-- A decimal number, none where a character is no digit or there is none. -/
def readDecimal (ds : List Char) : Option Nat :=
  if !ds.isEmpty && ds.all Char.isDigit then some (decimalValue ds) else none

/-- A decimal literal with an optional leading `-` (30_encoding.md R103 test 3). -/
def readLiteral (t : List Char) : Option Int :=
  match t with
  | '-' :: ds => (readDecimal ds).map fun n => -(n : Int)
  | ds => (readDecimal ds).map fun n => (n : Int)

/-- A register name, `R` followed by a decimal number (30_encoding.md R103 test 1). -/
def readRegister (t : List Char) : Option Nat :=
  match t with
  | 'R' :: ds => readDecimal ds
  | _ => none

/-- The label table: names with their byte addresses (30_encoding.md R101). -/
abbrev LabelTable := List (List Char × Nat)

/-- The value of an operand token, by the three tests in their order (30_encoding.md R103). -/
def operandValue (labels : LabelTable) (t : List Char) : Except AsmError Int :=
  match readRegister t with
  | some n => .ok (n : Int)
  | none =>
    match t with
    | [] => .error .badToken
    | c :: _ =>
      if c.isAlpha then
        match labels.lookup t with
        | some address => .ok (address : Int)
        | none => .error .unresolvedLabel
      else
        match readLiteral t with
        | some v => .ok v
        | none => .error .badToken

/-- `field = value mod 256`, a negative value in two's complement (30_encoding.md R104). -/
def operandField (v : Int) : Byte := BitVec.ofInt 8 v

/-- The fields of the operand tokens, in slot order. -/
def operandFields (labels : LabelTable) : List (List Char) → Except AsmError (List Byte)
  | [] => .ok []
  | t :: rest => do
    let v ← operandValue labels t
    let fs ← operandFields labels rest
    return operandField v :: fs

/-- Pass 1: the address of every label; an instruction line adds 4 to the counter, a label line nothing
(30_encoding.md R101). -/
def collectLabels (address : Nat) (known : LabelTable) : List Line → Except AsmError LabelTable
  | [] => .ok known
  | .blank :: rest => collectLabels address known rest
  | .instr _ :: rest => collectLabels (address + 4) known rest
  | .label name :: rest =>
    if (known.lookup name).isSome then .error .duplicateLabel else collectLabels address ((name, address) :: known) rest

/-- The word of an instruction line; unused slots hold 0 (30_encoding.md R82, R102). -/
def assembleInstr (labels : LabelTable) (tokens : List (List Char)) : Except AsmError Word :=
  match tokens with
  | [] => .error .unknownMnemonic
  | name :: operands =>
    match findMnemonic name mnemonicTable with
    | none => .error .unknownMnemonic
    | some (opcode, count) =>
      if operands.length = count then do
        let fs ← operandFields labels operands
        return packFields ⟨opcode, fs.getD 0 0#8, fs.getD 1 0#8, fs.getD 2 0#8⟩
      else .error .operandCount

/-- Pass 2: one word per instruction line, in source order (30_encoding.md R105). -/
def assembleLines (labels : LabelTable) : List Line → Except AsmError (List Word)
  | [] => .ok []
  | .instr tokens :: rest => do
    let w ← assembleInstr labels tokens
    let ws ← assembleLines labels rest
    return w :: ws
  | _ :: rest => assembleLines labels rest

/-- The two passes over a source text (30_encoding.md R100 to R105). -/
def assemble (source : List Char) : Except AsmError (List Word) := do
  let lines := (cutAt (fun c => c == '\n') source).map readLine
  let labels ← collectLabels 0 [] lines
  assembleLines labels lines

end Sys2Proof.Machine
end

