-- ==== Sys2Proof/Machine/Boot.lean ====
section
/-! DEFINITION. What the host may do before the first step: make a CPU state for any parameters and any `MEM_INIT`
(70_reset_and_hazards.md R260 to R262) and load a program (R263, R264). Neither is a step. -/

namespace Sys2Proof.Machine

/-- Bytes written one after another from an address on. -/
def Memory.writeBytes (m : Memory) (a : Nat) : List Byte → Memory
  | [] => m
  | b :: rest => (m.writeByte a b).writeBytes (a + 1) rest

/-- Reset with the parameters `p` and the `MEM_INIT` image `image` (00_scope.md R7, 70_reset_and_hazards.md R260, R262):
byte `k` of the image at address `k`. An image shorter than the memory leaves 0 above it; one longer is cut at 1024
bytes. -/
def State.resetWith (p : Params) (image : List Byte) : State :=
  { State.reset with mem := ({ cells := [] } : Memory).writeBytes 0 (image.take memSize), params := p }

/-- `load_code(bytes)` (70_reset_and_hazards.md R263): more than 256 bytes fail with `ProgramTooLarge` and copy nothing;
otherwise the bytes stand at the code segment base and nothing else changes. -/
def loadCode (bytes : List Byte) (s : State) : Except FaultCode State :=
  if bytes.length ≤ codeSize then .ok { s with mem := s.mem.writeBytes codeBase bytes } else .error .programTooLarge

/-- The bytes of a program file: its words one after another, each little-endian (30_encoding.md R105). -/
def programBytes (ws : List Word) : List Byte := ws.flatMap wordBytes

/-- The status readout (10_state.md R44): the host reads the whole state once the engine has halted, and not before
(R45). -/
def readout (s : State) : Option State := if s.halted then some s else none

end Sys2Proof.Machine
end

