-- ==== Sys2Proof/Safety.lean ====
section
/-! DEFINITION. What claims about the machine are stated in: how a run ends (41_execution_cycle.md R149), the invariant of
the states a run reaches, which register an instruction writes (10_state.md R21), and the part of the state that decides
what the engine does (10_state.md R27, R30, R32, R42). -/

namespace Sys2Proof.Machine

/-- The run ended normally: HALT was executed (41_execution_cycle.md R149). -/
def State.endedNormally (s : State) : Prop := s.halted = true ∧ s.fault = none

/-- The run ended in a fault (41_execution_cycle.md R149). -/
def State.endedInFault (s : State) : Prop := s.halted = true ∧ s.fault ≠ none

/-- What holds of every state a run reaches: memory in its canonical form, `sp` a multiple of 4 in [0x200, 0x300]
(10_state.md R26), `hp` at the heap base (R27), a recorded fault only in a halted engine (R31, R32). -/
structure State.Inv (s : State) : Prop where
  memory : s.mem.wf
  spLow : stackBase ≤ s.sp.toNat
  spHigh : s.sp.toNat ≤ stackEnd
  spAligned : s.sp.toNat % 4 = 0
  heap : s.hp = 0x00000300#32
  faultHalts : s.fault ≠ none → s.halted = true

/-- `t` is reached from `s` by steps that answer a next state. -/
inductive Reaches : State → State → Prop where
  | refl (s : State) : Reaches s s
  | step {s t u : State} (first : step s = .next t) (rest : Reaches t u) : Reaches s u

/-- Instructions executed one after another until one leaves the engine halted. -/
def execAll : List Instr → State → Result
  | [], s => .next s
  | i :: rest, s =>
    match exec i s with
    | .next t => if t.halted then .next t else execAll rest t
    | .fault r => .fault r
    | .refused r => .refused r

/-- The slot that names the register an instruction writes (10_state.md R21, third column). -/
def destination : Instr → Option Byte
  | .add d _ _ | .sub d _ _ | .mul d _ _ | .div d _ _ | .and d _ _ | .or d _ _ | .xor d _ _ | .not d _ | .shl d _ _
  | .shr d _ _ | .eq d _ _ | .neq d _ _ | .gt d _ _ | .lt d _ _ | .ge d _ _ | .le d _ _ | .load d _ | .pop d => some d
  | .store _ _ | .jump _ | .jz _ | .jnz _ | .call _ | .ret | .push _ | .halt | .out _ => none

/-- JUMP, JZ, JNZ, CALL, RET: the instructions that may write `pc` (10_state.md R24, 46_control_transfer.md). -/
def isControlTransfer : Instr → Bool
  | .jump _ | .jz _ | .jnz _ | .call _ | .ret => true
  | .add _ _ _ | .sub _ _ _ | .mul _ _ _ | .div _ _ _ | .and _ _ _ | .or _ _ _ | .xor _ _ _ | .not _ _ | .shl _ _ _
  | .shr _ _ _ | .eq _ _ _ | .neq _ _ _ | .gt _ _ _ | .lt _ _ _ | .ge _ _ _ | .le _ _ _ | .load _ _ | .store _ _
  | .push _ | .pop _ | .halt | .out _ => false

/-- EQ, NEQ, GT, LT, GE, LE: the opcodes whose dispatch is the parameter `COMPARE_DISPATCH` (44_compare.md). -/
def isComparison : Instr → Bool
  | .eq _ _ _ | .neq _ _ _ | .gt _ _ _ | .lt _ _ _ | .ge _ _ _ | .le _ _ _ => true
  | .add _ _ _ | .sub _ _ _ | .mul _ _ _ | .div _ _ _ | .and _ _ _ | .or _ _ _ | .xor _ _ _ | .not _ _ | .shl _ _ _
  | .shr _ _ _ | .load _ _ | .store _ _ | .jump _ | .jz _ | .jnz _ | .call _ | .ret | .push _ | .pop _ | .halt
  | .out _ => false

/-- The address of the word an instruction stores to, where it stores (20_memory.md R59): STORE at `x[op1]`, PUSH and
CALL at `sp - 4`, no other instruction. -/
def storeAddress (s : State) : Instr → Option Word
  | .store _ a =>
    match regIndex a with
    | .ok i => some (s.regs.get i)
    | .error _ => none
  | .push _ | .call _ => some (s.sp - 4#32)
  | .add _ _ _ | .sub _ _ _ | .mul _ _ _ | .div _ _ _ | .and _ _ _ | .or _ _ _ | .xor _ _ _ | .not _ _ | .shl _ _ _
  | .shr _ _ _ | .eq _ _ _ | .neq _ _ _ | .gt _ _ _ | .lt _ _ _ | .ge _ _ _ | .le _ _ _ | .load _ _ | .jump _ | .jz _
  | .jnz _ | .ret | .pop _ | .halt | .out _ => none

/-- `m'` is `m` with the word `v` at `a`, `a + 1`, `a + 2`, `a + 3`, little-endian, and every other byte as it was
(20_memory.md R52, R55). -/
def Memory.HoldsAfterStore (m : Memory) (a : Nat) (v : Word) (m' : Memory) : Prop :=
  ∀ k, m'.readByte k = if a ≤ k ∧ k < a + 4 then v.extractLsb' (8 * (k - a)) 8 else m.readByte k

/-- The part of the state that decides what the engine does: all but `N`, `O`, `hp`, `fault` and `out`, which no
instruction reads (10_state.md R27, R30, R32, R42). -/
structure Steering where
  regs : RegFile
  pc : Word
  sp : Word
  z : Bool
  halted : Bool
  mem : Memory
  params : Params
deriving DecidableEq, Repr

/-- The steering part of a state. -/
def State.steering (s : State) : Steering :=
  { regs := s.regs, pc := s.pc, sp := s.sp, z := s.flags.z, halted := s.halted, mem := s.mem, params := s.params }

end Sys2Proof.Machine
end

