-- ==== Sys2Proof/WellFormed.lean ====
section
/-! DEFINITION. Well-formed instructions: the limit "Register operands below 4" that 70_reset_and_hazards.md R266 puts on
programs (30_encoding.md R88 checks it when the instruction runs). The other limit on an operand, a value below 256
(30_encoding.md R82, R104), holds by the type `Byte`. An ill-formed instruction decodes and runs: it faults. -/

namespace Sys2Proof

/-- The operand byte names one of the four registers (10_state.md R20). -/
def namesRegister (op : Byte) : Bool := decide (op.toNat < 4)

/-- Every slot of the instruction that names a register (30_encoding.md R84, R93) names one that exists. -/
def Instr.wellFormed : Instr → Bool
  | .add d s t => namesRegister d && namesRegister s && namesRegister t
  | .sub d s t => namesRegister d && namesRegister s && namesRegister t
  | .mul d s t => namesRegister d && namesRegister s && namesRegister t
  | .div d s t => namesRegister d && namesRegister s && namesRegister t
  | .and d s t => namesRegister d && namesRegister s && namesRegister t
  | .or d s t => namesRegister d && namesRegister s && namesRegister t
  | .xor d s t => namesRegister d && namesRegister s && namesRegister t
  | .not d s => namesRegister d && namesRegister s
  | .shl d s t => namesRegister d && namesRegister s && namesRegister t
  | .shr d s t => namesRegister d && namesRegister s && namesRegister t
  | .eq d s t => namesRegister d && namesRegister s && namesRegister t
  | .neq d s t => namesRegister d && namesRegister s && namesRegister t
  | .gt d s t => namesRegister d && namesRegister s && namesRegister t
  | .lt d s t => namesRegister d && namesRegister s && namesRegister t
  | .ge d s t => namesRegister d && namesRegister s && namesRegister t
  | .le d s t => namesRegister d && namesRegister s && namesRegister t
  | .load d _ => namesRegister d
  | .store v a => namesRegister v && namesRegister a
  | .jump _ => true
  | .jz _ => true
  | .jnz _ => true
  | .call s => namesRegister s
  | .ret => true
  | .push s => namesRegister s
  | .pop d => namesRegister d
  | .halt => true
  | .out s => namesRegister s

end Sys2Proof
end

