-- ==== Sys2Proof/Certificates/Slice0/Obligations.lean ====
section
/-! DEFINITION. The statements for the provers. Each docstring names the rules of spec/ it formalises. In a statement
about an instruction the first clause is its encoding, then where it completes and the whole next state, then where it
raises which fault: a next state that is an update of `s` says its own frame. -/

open Sys2Proof Sys2Proof.Machine

/-! ### Encoding -/

/-- Decoding the word, or the bytes, of any instruction gives that instruction back, with every operand byte at every
value (30_encoding.md R82, R84; 20_memory.md R52). -/
def Obligations.DecodeReadsBackEveryEncodedInstr : Prop :=
  ∀ (i : Instr) (rest : List Byte),
    decodeWord (encode i) = .ok i ∧ decodeBytes (encodeBytes i ++ rest) = .ok (i, rest)

/-- The format itself: the four fields of a packed word are the fields packed, and an operand of 256 is not
representable, it becomes 0 (30_encoding.md R95). -/
def Obligations.PackedFieldsReadBack : Prop :=
  (∀ f : Fields, wordFields (packFields f) = f) ∧ (∀ w : Word, packFields (wordFields w) = w) ∧
    (∀ v : Int, (operandField v).toNat = (v % 256).toNat)

/-- Exactly the opcode bytes 0x00 to 0x1A are assigned; a decoded word differs from the encoding of its instruction only
in the ignored slots, and the ignored slots do not matter (30_encoding.md R84, R85, R94). -/
def Obligations.DecodingLooksOnlyAtUsedBits : Prop :=
  (∀ w : Word, (∃ i, decodeWord w = .ok i) ↔ w.toNat / 2 ^ 24 ≤ 0x1A) ∧
    (∀ (w : Word) (i : Instr), decodeWord w = .ok i → encode i = w &&& usedMask i.opcode) ∧
    (∀ w w' : Word, w &&& usedMask (wordFields w).opcode = w' &&& usedMask (wordFields w).opcode →
      decodeWord w' = decodeWord w)

/-- Words written out from the encodings of the rules, one and more for each family (42_arithmetic.md R160, R163;
43_logic_shift.md R173, R174; 44_compare.md R182; 45_load_store.md R190, R191; 46_control_transfer.md R200, R203, R204;
47_stack.md R211; 48_system.md R220, R221). The last clause is the model's choice (log entry 9): its decoder answers an
error for an unassigned opcode byte, which 30_encoding.md R81 decodes to its byte value and R85 makes fault at dispatch. -/
def Obligations.WrittenOutWordsDecode : Prop :=
  decodeWord 0x00000102#32 = .ok (.add 0 1 2) ∧ decodeWord 0x03010002#32 = .ok (.div 1 0 2) ∧
    decodeWord 0x07000100#32 = .ok (.not 0 1) ∧ decodeWord 0x08010102#32 = .ok (.shl 1 1 2) ∧
    decodeWord 0x0A020001#32 = .ok (.eq 2 0 1) ∧ decodeWord 0x1002FF00#32 = .ok (.load 2 255) ∧
    decodeWord 0x11030100#32 = .ok (.store 3 1) ∧ decodeWord 0x12410000#32 = .ok (.jump 65) ∧
    decodeWord 0x15030000#32 = .ok (.call 3) ∧ decodeWord 0x16000000#32 = .ok .ret ∧
    decodeWord 0x18010000#32 = .ok (.pop 1) ∧ decodeWord 0x19FFFFFF#32 = .ok .halt ∧
    decodeWord 0x1A020000#32 = .ok (.out 2) ∧ decodeWord 0x1B000000#32 = .error (.unassignedOpcode 0x1B)

/-! ### The step -/

/-- A step runs the decoded instruction: where the four bytes at `pc` decode to `i` and `exec i` answers `t`, the step
answers `t`, with 4 added to `pc` if the engine is not halted and `pc` is unchanged (41_execution_cycle.md R142 to
R146). -/
def Obligations.StepRunsTheDecodedInstr : Prop :=
  ∀ (s t : State) (i : Instr), s.halted = false → s.pc.toNat < 0x100 →
    decodeBytes [s.mem.readByte s.pc.toNat, s.mem.readByte (s.pc.toNat + 1), s.mem.readByte (s.pc.toNat + 2),
      s.mem.readByte (s.pc.toNat + 3)] = .ok (i, []) →
    exec i s = .next t →
    step s = .next (if t.halted = false ∧ t.pc = s.pc then { t with pc := s.pc + 4#32 } else t)

/-- No instruction stops the model: every instruction, in every state, answers a next state
(70_reset_and_hazards.md R274; 93_implementation_defined.md section 1). -/
def Obligations.EveryInstrAnswersANextState : Prop := ∀ (i : Instr) (s : State), ∃ t, exec i s = .next t

/-- A step exists only when `halted = 0`: a halted engine has no step, and every running state has one
(41_execution_cycle.md R140; the name of the stop is the model's, log entry 3). -/
def Obligations.StepExistsExactlyWhenRunning : Prop :=
  ∀ s : State, (s.halted = true → step s = .fault .halted) ∧ (s.halted = false → ∃ t, step s = .next t)

/-- The fetch check: `pc` outside the code segment raises `OutOfBounds` and keeps `pc`; any `pc` below 0x100 passes and
the little-endian word there is fetched (41_execution_cycle.md R141, R142). -/
def Obligations.FetchChecksOnlyTheCodeSegment : Prop :=
  ∀ s : State,
    (s.halted = false → 0x100 ≤ s.pc.toNat →
      step s = .next { s with halted := true, fault := some .outOfBounds }) ∧
    (s.pc.toNat < 0x100 →
      fetch s = .ok (s.mem.readByte (s.pc.toNat + 3) ++ s.mem.readByte (s.pc.toNat + 2) ++
        s.mem.readByte (s.pc.toNat + 1) ++ s.mem.readByte s.pc.toNat))

/-- Every opcode byte that is not dispatchable raises `InvalidOpcode`, whatever its operand bytes hold, and nothing else
changes (48_system.md R222). -/
def Obligations.UndispatchableOpcodeRaisesInvalidOpcode : Prop :=
  ∀ s : State, s.halted = false → s.pc.toNat < 0x100 →
    (let opcode := (s.mem.readByte (s.pc.toNat + 3)).toNat
     0x1B ≤ opcode ∨ (0x0A ≤ opcode ∧ opcode ≤ 0x0F ∧ s.params.compareDispatch = .fault)) →
    step s = .next { s with halted := true, fault := some .invalidOpcode }

/-- The pc advance is a comparison of values (41_execution_cycle.md R145, R146). -/
def Obligations.AdvanceComparesPcValues : Prop :=
  ∀ (pc0 : Word) (t : State),
    (t.halted = false → t.pc = pc0 → advance pc0 t = { t with pc := pc0 + 4#32 }) ∧
    (t.halted = false → t.pc ≠ pc0 → advance pc0 t = t) ∧ (t.halted = true → advance pc0 t = t)

/-- A control transfer to its own address continues at `pc0 + 4`; a CALL still pushes and a RET still pops
(41_execution_cycle.md R147). -/
def Obligations.TransferToOwnAddressFallsThrough : Prop :=
  ∀ (s : State) (i : Instr), s.halted = false → s.pc.toNat < 0x100 →
    decodeWord (s.mem.readWord s.pc.toNat) = .ok i →
    (∀ tgt : Byte, (i = .jump tgt ∨ (i = .jz tgt ∧ s.flags.z = true) ∨ (i = .jnz tgt ∧ s.flags.z = false)) →
      tgt.toNat = s.pc.toNat → step s = .next { s with pc := s.pc + 4#32 }) ∧
    (∀ (r : Byte) (hr : r.toNat < 4), i = .call r → s.regs.get ⟨r.toNat, hr⟩ = s.pc → 0x204 ≤ s.sp.toNat →
      s.sp.toNat ≤ 0x400 →
      ∃ m, step s = .next { s with sp := s.sp - 4#32, mem := m, pc := s.pc + 4#32 } ∧
        s.mem.HoldsAfterStore (s.sp.toNat - 4) s.pc m) ∧
    (i = .ret → s.sp.toNat ≤ 0x2FC → s.mem.readWord s.sp.toNat = s.pc →
      step s = .next { s with sp := s.sp + 4#32, pc := s.pc + 4#32 })

/-! ### Faults and the whole machine -/

/-- Every instruction is all-or-nothing: a step, and an instruction, either raises a fault and changes nothing but
`halted` and `fault`, or leaves `fault` as it was (00_scope.md R10, 60_exceptions.md R233). -/
def Obligations.FaultsArePrecise : Prop :=
  (∀ s t : State, step s = .next t →
    (∃ f, t = { s with halted := true, fault := some f }) ∨ t.fault = s.fault) ∧
  (∀ (i : Instr) (s t : State), exec i s = .next t →
    (∃ f, t = { s with halted := true, fault := some f }) ∨ t.fault = s.fault)

/-- An instruction whose register operands are all below 4 never raises `InvalidRegister`; one with a register operand
of 4 or more raises it, unless it is a comparison that is not dispatchable (30_encoding.md R88, 60_exceptions.md R231,
R234, 70_reset_and_hazards.md R266). -/
def Obligations.InvalidRegisterExactlyWhenIllFormed : Prop :=
  ∀ (i : Instr) (s : State),
    (i.wellFormed = true → s.fault ≠ some .invalidRegister →
      ∀ t, exec i s = .next t → t.fault ≠ some .invalidRegister) ∧
    (i.wellFormed = false → (isComparison i = true → s.params.compareDispatch = .execute) →
      exec i s = .next { s with halted := true, fault := some .invalidRegister })

/-- The invariant of the states a run reaches: every step keeps it (10_state.md R26, R27, R31, R32; 47_stack.md R212;
the canonical form of memory is the model's, log entry 2). -/
def Obligations.StepKeepsTheMachineInvariant : Prop := ∀ s t : State, s.Inv → step s = .next t → t.Inv

/-- It holds right after reset, for all parameters and every `MEM_INIT`, and a program load keeps it
(70_reset_and_hazards.md R260, R263). -/
def Obligations.ResetAndLoadMeetTheMachineInvariant : Prop :=
  State.reset.Inv ∧ (∀ (p : Params) (image : List Byte), (State.resetWith p image).Inv) ∧
    (∀ (bytes : List Byte) (s t : State), s.Inv → loadCode bytes s = .ok t → t.Inv)

/-- In every state that any loaded program reaches, under all parameters and every `MEM_INIT`, `sp` is a multiple of 4
in [0x200, 0x300], `hp` is 0x300, and a fault is recorded only in a halted engine (10_state.md R26, R27, R31, R32); the
parameters, which the model holds in the state (log entry 1), are those of the reset. -/
def Obligations.EveryLoadedRunKeepsTheStackRange : Prop :=
  ∀ (p : Params) (image bytes : List Byte) (s t : State), loadCode bytes (State.resetWith p image) = .ok s →
    Reaches s t →
    0x200 ≤ t.sp.toNat ∧ t.sp.toNat ≤ 0x300 ∧ t.sp.toNat % 4 = 0 ∧ t.hp = 0x300#32 ∧
      (t.fault ≠ none → t.halted = true) ∧ t.params = p

/-- What no instruction reads never steers the engine: two states that differ in `N`, `O`, `hp`, `fault` and the trace
alone take the same steps, emit the same output and raise the same faults (10_state.md R27, R30, R32, R42). -/
def Obligations.UnreadStateNeverSteersTheEngine : Prop :=
  ∀ s s' t : State, s.steering = s'.steering → step s = .next t →
    ∃ t', step s' = .next t' ∧ t.steering = t'.steering ∧
      (∃ emitted, t.out = s.out ++ emitted ∧ t'.out = s'.out ++ emitted) ∧
      ((t.fault = s.fault ∧ t'.fault = s'.fault) ∨ ∃ f, t.fault = some f ∧ t'.fault = some f)

/-- HALT is the only way to stop without a fault, and it changes `halted` alone (48_system.md R220,
41_execution_cycle.md R145, R149). -/
def Obligations.OnlyHaltStopsWithoutAFault : Prop :=
  ∀ s t : State, s.fault = none → step s = .next t → t.endedNormally →
    decodeWord (s.mem.readWord s.pc.toNat) = .ok .halt ∧ t = { s with halted := true }

/-! ### Frames over all instructions -/

/-- The flags are written only by ADD, SUB and, under `COMPARE_DISPATCH = Execute`, the comparisons (10_state.md R29). -/
def Obligations.OnlyAddSubAndComparisonsWriteFlags : Prop :=
  ∀ (i : Instr) (s t : State), exec i s = .next t → t.flags ≠ s.flags →
    (∃ d a b, i = .add d a b ∨ i = .sub d a b) ∨ (isComparison i = true ∧ s.params.compareDispatch = .execute)

/-- Only PUSH, POP, CALL and RET change `sp`, each by exactly 4 (10_state.md R26). -/
def Obligations.OnlyStackInstrsMoveSpByFour : Prop :=
  ∀ (i : Instr) (s t : State), exec i s = .next t →
    t.sp = s.sp ∨ ((∃ r, i = .push r ∨ i = .call r) ∧ t.sp = s.sp - 4#32) ∨
      ((i = .ret ∨ ∃ d, i = .pop d) ∧ t.sp = s.sp + 4#32)

/-- A register that is not the instruction's destination keeps its value (10_state.md R21). -/
def Obligations.OnlyTheDestinationRegisterIsWritten : Prop :=
  ∀ (i : Instr) (s t : State) (j : Fin 4), exec i s = .next t →
    (∀ d, destination i = some d → d.toNat ≠ j.val) → t.regs.get j = s.regs.get j

/-- A byte of memory outside the word an instruction stores to keeps its value, and every byte does where the
instruction stores nothing (20_memory.md R59, R60). -/
def Obligations.OnlyTheStoredWordChangesMemory : Prop :=
  ∀ (i : Instr) (s t : State) (k : Nat), exec i s = .next t →
    (∀ a, storeAddress s i = some a → k < a.toNat ∨ a.toNat + 4 ≤ k) → t.mem.readByte k = s.mem.readByte k

/-- In a state that meets the invariant, PUSH and CALL that do not fault store a whole aligned word inside the stack
segment [0x200, 0x300), and POP and RET that do not fault read one there (20_memory.md R60, 47_stack.md R212). -/
def Obligations.StackAccessesStayInTheStackSegment : Prop :=
  ∀ (i : Instr) (s t : State), s.Inv → exec i s = .next t → t.fault = none →
    ((∃ r, i = .push r ∨ i = .call r) →
      0x200 ≤ t.sp.toNat ∧ t.sp.toNat + 4 ≤ 0x300 ∧ t.sp.toNat % 4 = 0 ∧
        ∀ k, (k < t.sp.toNat ∨ t.sp.toNat + 4 ≤ k) → t.mem.readByte k = s.mem.readByte k) ∧
    ((i = .ret ∨ ∃ d, i = .pop d) → 0x200 ≤ s.sp.toNat ∧ s.sp.toNat + 4 ≤ 0x300 ∧ s.sp.toNat % 4 = 0 ∧
      t.mem = s.mem)

/-- The trace grows only by an OUT that does not fault, by its register and value at the end (10_state.md R42). -/
def Obligations.OnlyOutExtendsTheTrace : Prop :=
  ∀ (i : Instr) (s t : State), exec i s = .next t →
    t.out = s.out ∨
      ∃ (r : Byte) (j : Fin 4), i = .out r ∧ r.toNat = j.val ∧ t.out = s.out ++ [(j, s.regs.get j)]

/-- Only a control transfer writes `pc`; after any other instruction that leaves the engine running, a step has added 4,
which never wraps (10_state.md R23, R25). -/
def Obligations.OnlyControlTransfersWritePc : Prop :=
  (∀ (i : Instr) (s t : State), exec i s = .next t → isControlTransfer i = false → t.pc = s.pc) ∧
  (∀ (i : Instr) (s t : State), step s = .next t → decodeWord (s.mem.readWord s.pc.toNat) = .ok i →
    isControlTransfer i = false → t.halted = false → t.pc.toNat = s.pc.toNat + 4 ∧ t.pc.toNat ≤ 0x103)

/-- No step changes `hp` (10_state.md R27), nor the parameters the model holds (00_scope.md R7, log entry 1). -/
def Obligations.RunsNeverChangeHpOrParameters : Prop :=
  ∀ s t : State, Reaches s t → t.hp = s.hp ∧ t.params = s.params

/-! ### Memory -/

/-- `MemRead`: in bounds exactly when `uint(addr) + 4 <= 1024`, the little-endian word, else `OutOfBounds`
(20_memory.md R53, R54). -/
def Obligations.MemReadIsBoundedLittleEndian : Prop :=
  ∀ (m : Memory) (addr : Word),
    (addr.toNat + 4 ≤ 1024 →
      memRead m addr = .ok (m.readByte (addr.toNat + 3) ++ m.readByte (addr.toNat + 2) ++ m.readByte (addr.toNat + 1) ++
        m.readByte addr.toNat)) ∧
    (1024 < addr.toNat + 4 → memRead m addr = .error .outOfBounds)

/-- `MemWrite`: the same bounds; it overwrites the four bytes, little-endian, and no other (20_memory.md R55). -/
def Obligations.MemWriteOverwritesFourBytes : Prop :=
  ∀ (m : Memory) (addr v : Word),
    (addr.toNat + 4 ≤ 1024 →
      ∃ m', memWrite m addr v = .ok m' ∧ m.HoldsAfterStore addr.toNat v m') ∧
    (1024 < addr.toNat + 4 → memWrite m addr v = .error .outOfBounds)

/-- For every in-bounds address and value, a write followed by a read there returns the value, and a read of four other
bytes returns what it did (45_load_store.md R192). -/
def Obligations.WrittenWordReadsBack : Prop :=
  ∀ (m m' : Memory) (addr other v : Word), memWrite m addr v = .ok m' →
    memRead m' addr = .ok v ∧
      (other.toNat + 4 ≤ addr.toNat ∨ addr.toNat + 4 ≤ other.toNat → memRead m' other = memRead m other)

/-- Memories in the canonical form that read alike are equal data (the model's form of 20_memory.md R50, log entry 2). -/
def Obligations.CanonicalMemoriesThatReadAlikeAreEqual : Prop :=
  ∀ m m' : Memory, m.wf → m'.wf → (∀ k, m.readByte k = m'.readByte k) → m = m'

/-- A STORE into the code segment is what every later fetch reads, from the very next step on; a STORE over its own word
still completes (20_memory.md R68). -/
def Obligations.StoreIntoCodeIsSeenByTheNextFetch : Prop :=
  ∀ (s : State) (v a : Byte) (hv : v.toNat < 4) (ha : a.toNat < 4), s.halted = false → s.pc.toNat < 0x100 →
    decodeWord (s.mem.readWord s.pc.toNat) = .ok (.store v a) → s.params.misalignedPolicy = .access →
    (s.regs.get ⟨a.toNat, ha⟩).toNat < 0x100 →
    ∃ t, step s = .next t ∧ t.pc = s.pc + 4#32 ∧ t.halted = false ∧
      fetch { t with pc := s.regs.get ⟨a.toNat, ha⟩ } = .ok (s.regs.get ⟨v.toNat, hv⟩)

/-! ### Reset and loading -/

/-- The state after reset, for all parameters and every `MEM_INIT` (70_reset_and_hazards.md R260). That the parameters
stand in the state is the model's choice (log entry 1), and that a short image is padded with 0 is too (log entry 2). -/
def Obligations.ResetSetsEveryElement : Prop :=
  (∀ (p : Params) (image : List Byte),
    let s := State.resetWith p image
    (∀ i, s.regs.get i = 0#32) ∧ s.flags = ⟨false, false, false⟩ ∧ s.pc = 0#32 ∧ s.sp = 0x300#32 ∧ s.hp = 0x300#32 ∧
      s.halted = false ∧ s.fault = none ∧ s.out = [] ∧ s.params = p ∧
      ∀ k, k < 1024 → s.mem.readByte k = image.getD k 0#8) ∧
  State.reset = State.resetWith { compareDispatch := .fault, shiftAmount := .mask5, misalignedPolicy := .access } []

/-- `load_code`: at most 256 bytes are copied to 0 and up and nothing else changes; more fail with `ProgramTooLarge`
(70_reset_and_hazards.md R263). -/
def Obligations.LoadCodeCopiesAtMostTheCodeSegment : Prop :=
  ∀ (bytes : List Byte) (s : State),
    (bytes.length ≤ 256 →
      ∃ m, loadCode bytes s = .ok { s with mem := m } ∧
        ∀ k, m.readByte k = if k < bytes.length then bytes.getD k 0#8 else s.mem.readByte k) ∧
    (256 < bytes.length → loadCode bytes s = .error .programTooLarge)

/-- The file of a program of up to 64 words, once loaded, puts word `k` at address `4k`, where fetch reads it back
unchanged (70_reset_and_hazards.md R263, 30_encoding.md R105). -/
def Obligations.LoadedWordsAreFetchedBack : Prop :=
  ∀ (ws : List Word) (s t : State) (k : Nat) (hk : k < ws.length), loadCode (programBytes ws) s = .ok t →
    fetch { t with pc := BitVec.ofNat 32 (4 * k) } = .ok ws[k]

/-! ### The ALU -/

/-- `alu_add` and `alu_sub`: the wrapped result, `Z` and `N` from it, `O` exactly when the exact sum or difference lies
outside [-2^31, 2^31-1]; nothing but the flags is written (40_alu.md R110 to R114). -/
def Obligations.AluOverflowIsTheExactSignedRange : Prop :=
  ∀ (s : State) (a b : Word),
    (∃ o, aluAdd s a b = (a + b, { s with flags := { z := decide (a + b = 0#32), n := (a + b).msb, o := o } }) ∧
      (o = true ↔ a.toInt + b.toInt < -2 ^ 31 ∨ 2 ^ 31 - 1 < a.toInt + b.toInt) ∧
      (o = true ↔ a.msb = b.msb ∧ (a + b).msb ≠ a.msb)) ∧
    (∃ o, aluSub s a b = (a - b, { s with flags := { z := decide (a - b = 0#32), n := (a - b).msb, o := o } }) ∧
      (o = true ↔ a.toInt - b.toInt < -2 ^ 31 ∨ 2 ^ 31 - 1 < a.toInt - b.toInt))

/-- The ALU functions that no instruction calls: their values, `Z` and `N` from the result, `O` cleared (40_alu.md R115,
R117, R118, R119, R120). -/
def Obligations.UncalledAluFunctionsSetFlagsAndClearO : Prop :=
  ∀ (s : State) (a b : Word),
    (∀ p ∈ [(aluMul s a b, a * b), (aluAnd s a b, a &&& b), (aluOr s a b, a ||| b), (aluXor s a b, a ^^^ b),
        (aluNot s a, ~~~a), (aluShl s a b, a <<< shiftDistance s.params b),
        (aluShr s a b, a.sshiftRight (shiftDistance s.params b))],
      p.1 = (p.2, { s with flags := { z := decide (p.2 = 0#32), n := p.2.msb, o := false } })) ∧
    (s.params.shiftAmount = .mask5 → shiftDistance s.params b = b.toNat % 32) ∧
    (s.params.shiftAmount = .saturate → shiftDistance s.params b = b.toNat)

/-- `alu_div`: a zero divisor halts the engine and returns 0 with the flags unchanged; otherwise the signed quotient
rounded toward zero, modulo 2^32, with `O` cleared (40_alu.md R116). -/
def Obligations.AluDivTruncatesAndHaltsOnZero : Prop :=
  ∀ (s : State) (a b : Word),
    (b = 0#32 → aluDiv s a b = (0#32, { s with halted := true, fault := some .divideByZero })) ∧
    (b ≠ 0#32 → ∃ r, aluDiv s a b = (r, { s with flags := { z := decide (r = 0#32), n := r.msb, o := false } }) ∧
      (r.toInt = a.toInt.tdiv b.toInt ∨ (a = 0x80000000#32 ∧ b = 0xFFFFFFFF#32 ∧ r = 0x80000000#32)))

/-! ### The operand resolver -/

/-- The addressing-mode table, total on any opcode byte (30_encoding.md R86). -/
def Obligations.ModeTableIsKeyedByOpcode : Prop :=
  ∀ (opcode : Byte) (slot : Slot),
    modeTable opcode slot =
      if opcode = 0x10#8 then (if slot = .op0 then .register else .immediate)
      else if 0x12 ≤ opcode.toNat ∧ opcode.toNat ≤ 0x15 then .immediate else .register

/-- The resolver in each of its five modes, and the data read of the three memory modes under both values of
`MISALIGNED_POLICY` (30_encoding.md R87 to R91, 20_memory.md R56). -/
def Obligations.ResolverFollowsItsModes : Prop :=
  (∀ (s : State) (addr : Word),
    (s.params.misalignedPolicy = .access ∨ addr.toNat % 4 = 0 → dataRead s addr = memRead s.mem addr) ∧
    (s.params.misalignedPolicy = .fault ∧ addr.toNat % 4 ≠ 0 → dataRead s addr = .error .outOfBounds)) ∧
  ∀ (s : State) (op : Byte),
    resolve s op .immediate = .ok (BitVec.ofNat 32 op.toNat) ∧
    (∀ h : op.toNat < 4, resolve s op .register = .ok (s.regs.get ⟨op.toNat, h⟩)) ∧
    (4 ≤ op.toNat → resolve s op .register = .error .invalidRegister) ∧
    resolve s op .memory = dataRead s (BitVec.ofNat 32 op.toNat) ∧
    (∀ p, dataRead s (BitVec.ofNat 32 op.toNat) = .ok p → resolve s op .indirect = dataRead s p) ∧
    (∀ f, dataRead s (BitVec.ofNat 32 op.toNat) = .error f → resolve s op .indirect = .error f) ∧
    (∀ h : op.toNat / 16 < 4,
      resolve s op .indexed = dataRead s (s.regs.get ⟨op.toNat / 16, h⟩ + BitVec.ofNat 32 (op.toNat % 16))) ∧
    (4 ≤ op.toNat / 16 → resolve s op .indexed = .error .invalidRegister)

/-! ### Arithmetic instructions -/

/-- ADD (42_arithmetic.md R160, 40_alu.md R111, R112). -/
def Obligations.AddWritesTheSumAndAllFlags : Prop :=
  ∀ (s : State) (d a b : Byte),
    decodeWord (0x00#8 ++ d ++ a ++ b) = .ok (.add d a b) ∧
    (∀ (hd : d.toNat < 4) (ha : a.toNat < 4) (hb : b.toNat < 4),
      let x := s.regs.get ⟨a.toNat, ha⟩
      let y := s.regs.get ⟨b.toNat, hb⟩
      exec (.add d a b) s = .next { s with
        regs := s.regs.set ⟨d.toNat, hd⟩ (x + y)
        flags := { z := decide (x + y = 0#32), n := decide ((x + y).toInt < 0),
                   o := decide (x.toInt + y.toInt ≠ (x + y).toInt) } }) ∧
    (4 ≤ a.toNat ∨ 4 ≤ b.toNat ∨ 4 ≤ d.toNat →
      exec (.add d a b) s = .next { s with halted := true, fault := some .invalidRegister })

/-- SUB (42_arithmetic.md R161, 40_alu.md R113, R114). -/
def Obligations.SubWritesTheDifferenceAndAllFlags : Prop :=
  ∀ (s : State) (d a b : Byte),
    decodeWord (0x01#8 ++ d ++ a ++ b) = .ok (.sub d a b) ∧
    (∀ (hd : d.toNat < 4) (ha : a.toNat < 4) (hb : b.toNat < 4),
      let x := s.regs.get ⟨a.toNat, ha⟩
      let y := s.regs.get ⟨b.toNat, hb⟩
      exec (.sub d a b) s = .next { s with
        regs := s.regs.set ⟨d.toNat, hd⟩ (x - y)
        flags := { z := decide (x - y = 0#32), n := decide ((x - y).toInt < 0),
                   o := decide (x.toInt - y.toInt ≠ (x - y).toInt) } }) ∧
    (4 ≤ a.toNat ∨ 4 ≤ b.toNat ∨ 4 ≤ d.toNat →
      exec (.sub d a b) s = .next { s with halted := true, fault := some .invalidRegister })

/-- MUL: the product modulo 2^32, read as unsigned or as signed, no flag (42_arithmetic.md R162). -/
def Obligations.MulKeepsTheLowWordOfTheProduct : Prop :=
  ∀ (s : State) (d a b : Byte),
    decodeWord (0x02#8 ++ d ++ a ++ b) = .ok (.mul d a b) ∧
    (∀ (hd : d.toNat < 4) (ha : a.toNat < 4) (hb : b.toNat < 4),
      let x := s.regs.get ⟨a.toNat, ha⟩
      let y := s.regs.get ⟨b.toNat, hb⟩
      ∃ r : Word, r.toNat = x.toNat * y.toNat % 2 ^ 32 ∧ (r.toInt - x.toInt * y.toInt) % 2 ^ 32 = 0 ∧
        exec (.mul d a b) s = .next { s with regs := s.regs.set ⟨d.toNat, hd⟩ r }) ∧
    (4 ≤ a.toNat ∨ 4 ≤ b.toNat ∨ 4 ≤ d.toNat →
      exec (.mul d a b) s = .next { s with halted := true, fault := some .invalidRegister })

/-- DIV: the unsigned quotient rounded down, no flag; a zero divisor raises `DivideByZero` after the register checks and
stores nothing (42_arithmetic.md R163, 60_exceptions.md R234). -/
def Obligations.DivIsUnsignedAndFaultsOnZero : Prop :=
  ∀ (s : State) (d a b : Byte),
    decodeWord (0x03#8 ++ d ++ a ++ b) = .ok (.div d a b) ∧
    (∀ (hd : d.toNat < 4) (ha : a.toNat < 4) (hb : b.toNat < 4),
      let x := s.regs.get ⟨a.toNat, ha⟩
      let y := s.regs.get ⟨b.toNat, hb⟩
      (y ≠ 0#32 → ∃ r : Word, r.toNat * y.toNat ≤ x.toNat ∧ x.toNat < (r.toNat + 1) * y.toNat ∧
        exec (.div d a b) s = .next { s with regs := s.regs.set ⟨d.toNat, hd⟩ r }) ∧
      (y = 0#32 → exec (.div d a b) s = .next { s with halted := true, fault := some .divideByZero })) ∧
    (4 ≤ a.toNat ∨ 4 ≤ b.toNat ∨ 4 ≤ d.toNat →
      exec (.div d a b) s = .next { s with halted := true, fault := some .invalidRegister })

/-! ### Logic and shifts -/

/-- AND, OR and XOR, bit by bit, no flag (43_logic_shift.md R170, R171, R172). -/
def Obligations.LogicIsBitwiseAndWritesNoFlag : Prop :=
  ∀ p ∈ ([(0x04#8, .and, fun u v => u && v), (0x05#8, .or, fun u v => u || v), (0x06#8, .xor, fun u v => u ^^ v)] :
      List (Byte × (Byte → Byte → Byte → Instr) × (Bool → Bool → Bool))),
    ∀ (s : State) (d a b : Byte),
      decodeWord (p.1 ++ d ++ a ++ b) = .ok (p.2.1 d a b) ∧
      (∀ (hd : d.toNat < 4) (ha : a.toNat < 4) (hb : b.toNat < 4),
        ∃ r : Word, exec (p.2.1 d a b) s = .next { s with regs := s.regs.set ⟨d.toNat, hd⟩ r } ∧
          ∀ k, k < 32 → r.getLsbD k =
            p.2.2 ((s.regs.get ⟨a.toNat, ha⟩).getLsbD k) ((s.regs.get ⟨b.toNat, hb⟩).getLsbD k)) ∧
      (4 ≤ a.toNat ∨ 4 ≤ b.toNat ∨ 4 ≤ d.toNat →
        exec (p.2.1 d a b) s = .next { s with halted := true, fault := some .invalidRegister })

/-- NOT inverts every bit of op1's register; op2 is ignored (43_logic_shift.md R173). -/
def Obligations.NotInvertsEveryBit : Prop :=
  ∀ (s : State) (d a ignored : Byte),
    decodeWord (0x07#8 ++ d ++ a ++ ignored) = .ok (.not d a) ∧
    (∀ (hd : d.toNat < 4) (ha : a.toNat < 4),
      ∃ r : Word, exec (.not d a) s = .next { s with regs := s.regs.set ⟨d.toNat, hd⟩ r } ∧
        ∀ k, k < 32 → r.getLsbD k = !(s.regs.get ⟨a.toNat, ha⟩).getLsbD k) ∧
    (4 ≤ a.toNat ∨ 4 ≤ d.toNat →
      exec (.not d a) s = .next { s with halted := true, fault := some .invalidRegister })

/-- SHL under both values of `SHIFT_AMOUNT`: the value times 2^distance modulo 2^32, no flag (43_logic_shift.md R174,
40_alu.md R120). -/
def Obligations.ShlMultipliesByAPowerOfTwo : Prop :=
  ∀ (s : State) (d a b : Byte),
    decodeWord (0x08#8 ++ d ++ a ++ b) = .ok (.shl d a b) ∧
    (∀ (hd : d.toNat < 4) (ha : a.toNat < 4) (hb : b.toNat < 4),
      let x := s.regs.get ⟨a.toNat, ha⟩
      let y := s.regs.get ⟨b.toNat, hb⟩
      ∃ r : Word, exec (.shl d a b) s = .next { s with regs := s.regs.set ⟨d.toNat, hd⟩ r } ∧
        (s.params.shiftAmount = .mask5 → r.toNat = x.toNat * 2 ^ (y.toNat % 32) % 2 ^ 32) ∧
        (s.params.shiftAmount = .saturate → y.toNat < 32 → r.toNat = x.toNat * 2 ^ y.toNat % 2 ^ 32) ∧
        (s.params.shiftAmount = .saturate → 32 ≤ y.toNat → r = 0#32)) ∧
    (4 ≤ a.toNat ∨ 4 ≤ b.toNat ∨ 4 ≤ d.toNat →
      exec (.shl d a b) s = .next { s with halted := true, fault := some .invalidRegister })

/-- SHR under both values of `SHIFT_AMOUNT`: `floor(uint(a) / 2^distance)`, logical, no flag (43_logic_shift.md R175,
40_alu.md R120). -/
def Obligations.ShrDividesByAPowerOfTwo : Prop :=
  ∀ (s : State) (d a b : Byte),
    decodeWord (0x09#8 ++ d ++ a ++ b) = .ok (.shr d a b) ∧
    (∀ (hd : d.toNat < 4) (ha : a.toNat < 4) (hb : b.toNat < 4),
      let x := s.regs.get ⟨a.toNat, ha⟩
      let y := s.regs.get ⟨b.toNat, hb⟩
      ∃ r : Word, exec (.shr d a b) s = .next { s with regs := s.regs.set ⟨d.toNat, hd⟩ r } ∧
        (s.params.shiftAmount = .mask5 → r.toNat = x.toNat / 2 ^ (y.toNat % 32)) ∧
        (s.params.shiftAmount = .saturate → y.toNat < 32 → r.toNat = x.toNat / 2 ^ y.toNat) ∧
        (s.params.shiftAmount = .saturate → 32 ≤ y.toNat → r = 0#32)) ∧
    (4 ≤ a.toNat ∨ 4 ≤ b.toNat ∨ 4 ≤ d.toNat →
      exec (.shr d a b) s = .next { s with halted := true, fault := some .invalidRegister })

/-! ### Comparisons -/

/-- EQ, NEQ, GT, LT, GE and LE under `COMPARE_DISPATCH = Execute`: 1 or 0 by the signed relation, with `Z` its negation,
`N` and `O` cleared (44_compare.md R181 to R187, 40_alu.md R121). -/
def Obligations.ComparisonsExecuteAsSignedRelations : Prop :=
  ∀ p ∈ ([(0x0A#8, .eq, fun u v => decide (u = v)), (0x0B#8, .neq, fun u v => decide (u ≠ v)),
      (0x0C#8, .gt, fun u v => decide (v < u)), (0x0D#8, .lt, fun u v => decide (u < v)),
      (0x0E#8, .ge, fun u v => decide (v ≤ u)), (0x0F#8, .le, fun u v => decide (u ≤ v))] :
      List (Byte × (Byte → Byte → Byte → Instr) × (Int → Int → Bool))),
    ∀ (s : State) (d a b : Byte),
      decodeWord (p.1 ++ d ++ a ++ b) = .ok (p.2.1 d a b) ∧
      (s.params.compareDispatch = .execute →
        (∀ (hd : d.toNat < 4) (ha : a.toNat < 4) (hb : b.toNat < 4),
          let holds := p.2.2 (s.regs.get ⟨a.toNat, ha⟩).toInt (s.regs.get ⟨b.toNat, hb⟩).toInt
          exec (p.2.1 d a b) s = .next { s with
            regs := s.regs.set ⟨d.toNat, hd⟩ (if holds then 1#32 else 0#32)
            flags := { z := !holds, n := false, o := false } }) ∧
        (4 ≤ a.toNat ∨ 4 ≤ b.toNat ∨ 4 ≤ d.toNat →
          exec (p.2.1 d a b) s = .next { s with halted := true, fault := some .invalidRegister }))

/-- The same six under `COMPARE_DISPATCH = Fault`: `InvalidOpcode`, no operand resolved, nothing else changed
(44_compare.md R180). -/
def Obligations.ComparisonsFaultByDefault : Prop :=
  ∀ (i : Instr) (s : State), isComparison i = true → s.params.compareDispatch = .fault →
    exec i s = .next { s with halted := true, fault := some .invalidOpcode }

/-! ### Data transfer -/

/-- LOAD writes its literal, zero-extended, and never reads memory or a register (45_load_store.md R190). -/
def Obligations.LoadWritesItsLiteral : Prop :=
  ∀ (s : State) (d imm ignored : Byte),
    decodeWord (0x10#8 ++ d ++ imm ++ ignored) = .ok (.load d imm) ∧
    (∀ hd : d.toNat < 4,
      exec (.load d imm) s = .next { s with regs := s.regs.set ⟨d.toNat, hd⟩ (BitVec.ofNat 32 imm.toNat) }) ∧
    (4 ≤ d.toNat → exec (.load d imm) s = .next { s with halted := true, fault := some .invalidRegister })

/-- STORE writes the word of the value register at the address in the address register, under both values of
`MISALIGNED_POLICY` (45_load_store.md R191, 20_memory.md R56). -/
def Obligations.StoreWritesTheWordAtTheAddress : Prop :=
  ∀ (s : State) (v a ignored : Byte),
    decodeWord (0x11#8 ++ v ++ a ++ ignored) = .ok (.store v a) ∧
    (∀ (hv : v.toNat < 4) (ha : a.toNat < 4),
      let addr := s.regs.get ⟨a.toNat, ha⟩
      (addr.toNat ≤ 1020 → (s.params.misalignedPolicy = .fault → addr.toNat % 4 = 0) →
        ∃ m, exec (.store v a) s = .next { s with mem := m } ∧
          s.mem.HoldsAfterStore addr.toNat (s.regs.get ⟨v.toNat, hv⟩) m) ∧
      (1020 < addr.toNat ∨ (s.params.misalignedPolicy = .fault ∧ addr.toNat % 4 ≠ 0) →
        exec (.store v a) s = .next { s with halted := true, fault := some .outOfBounds })) ∧
    (4 ≤ v.toNat ∨ 4 ≤ a.toNat →
      exec (.store v a) s = .next { s with halted := true, fault := some .invalidRegister })

/-! ### Control transfer -/

/-- JUMP, JZ and JNZ: the literal target, taken always, if `Z = 1`, if `Z = 0`; no exception
(46_control_transfer.md R200, R201, R202). -/
def Obligations.JumpsGoToTheirLiteralTarget : Prop :=
  ∀ (s : State) (tgt x y : Byte),
    decodeWord (0x12#8 ++ tgt ++ x ++ y) = .ok (.jump tgt) ∧ decodeWord (0x13#8 ++ tgt ++ x ++ y) = .ok (.jz tgt) ∧
    decodeWord (0x14#8 ++ tgt ++ x ++ y) = .ok (.jnz tgt) ∧
    exec (.jump tgt) s = .next { s with pc := BitVec.ofNat 32 tgt.toNat } ∧
    (s.flags.z = true →
      exec (.jz tgt) s = .next { s with pc := BitVec.ofNat 32 tgt.toNat } ∧ exec (.jnz tgt) s = .next s) ∧
    (s.flags.z = false →
      exec (.jz tgt) s = .next s ∧ exec (.jnz tgt) s = .next { s with pc := BitVec.ofNat 32 tgt.toNat })

/-- CALL pushes its own address and jumps to the register's value; a full stack raises `OutOfBounds` after the register
check. An `sp` above 0x400, which no run reaches, would put the word outside memory (46_control_transfer.md R203,
20_memory.md R53, R58). -/
def Obligations.CallPushesItsOwnAddress : Prop :=
  ∀ (s : State) (r x y : Byte),
    decodeWord (0x15#8 ++ r ++ x ++ y) = .ok (.call r) ∧
    (∀ hr : r.toNat < 4,
      (0x204 ≤ s.sp.toNat → s.sp.toNat ≤ 0x400 →
        ∃ m, exec (.call r) s = .next { s with sp := s.sp - 4#32, mem := m, pc := s.regs.get ⟨r.toNat, hr⟩ } ∧
          s.mem.HoldsAfterStore (s.sp.toNat - 4) s.pc m) ∧
      (s.sp.toNat < 0x204 ∨ 0x400 < s.sp.toNat →
        exec (.call r) s = .next { s with halted := true, fault := some .outOfBounds })) ∧
    (4 ≤ r.toNat → exec (.call r) s = .next { s with halted := true, fault := some .invalidRegister })

/-- RET pops a word into `pc` and leaves memory alone; an empty stack raises `OutOfBounds`
(46_control_transfer.md R204, 20_memory.md R58). -/
def Obligations.RetPopsIntoPc : Prop :=
  ∀ (s : State) (x y z : Byte),
    decodeWord (0x16#8 ++ x ++ y ++ z) = .ok .ret ∧
    (s.sp.toNat ≤ 0x2FC →
      exec .ret s = .next { s with
        sp := s.sp + 4#32
        pc := s.mem.readByte (s.sp.toNat + 3) ++ s.mem.readByte (s.sp.toNat + 2) ++ s.mem.readByte (s.sp.toNat + 1) ++
          s.mem.readByte s.sp.toNat }) ∧
    (0x2FC < s.sp.toNat → exec .ret s = .next { s with halted := true, fault := some .outOfBounds })

/-- The source's CALL/RET property (95_test_vectors.md W6): before CALL `sp = S`; after it `sp = S - 4` and the word
there is the CALL's own address; after the RET that follows, from wherever the subroutine has got to, `sp = S` and `pc`
is that address (46_control_transfer.md R203, R204). -/
def Obligations.RetAfterCallReturnsToTheCall : Prop :=
  ∀ (s t : State) (r : Byte) (p : Word), s.Inv → exec (.call r) s = .next t → t.fault = none →
    t.sp = s.sp - 4#32 ∧ memRead t.mem t.sp = .ok s.pc ∧
      exec .ret { t with pc := p } = .next { t with pc := s.pc, sp := s.sp }

/-! ### Stack -/

/-- PUSH (47_stack.md R210, 20_memory.md R53, R58); an `sp` above 0x400 is as for CALL. -/
def Obligations.PushStoresBelowTheStackPointer : Prop :=
  ∀ (s : State) (r x y : Byte),
    decodeWord (0x17#8 ++ r ++ x ++ y) = .ok (.push r) ∧
    (∀ hr : r.toNat < 4,
      (0x204 ≤ s.sp.toNat → s.sp.toNat ≤ 0x400 →
        ∃ m, exec (.push r) s = .next { s with sp := s.sp - 4#32, mem := m } ∧
          s.mem.HoldsAfterStore (s.sp.toNat - 4) (s.regs.get ⟨r.toNat, hr⟩) m) ∧
      (s.sp.toNat < 0x204 ∨ 0x400 < s.sp.toNat →
        exec (.push r) s = .next { s with halted := true, fault := some .outOfBounds })) ∧
    (4 ≤ r.toNat → exec (.push r) s = .next { s with halted := true, fault := some .invalidRegister })

/-- POP: the destination is checked before the stack, memory keeps the word (47_stack.md R211, 20_memory.md R58). -/
def Obligations.PopReadsTheTopOfTheStack : Prop :=
  ∀ (s : State) (d x y : Byte),
    decodeWord (0x18#8 ++ d ++ x ++ y) = .ok (.pop d) ∧
    (∀ hd : d.toNat < 4,
      (s.sp.toNat ≤ 0x2FC →
        exec (.pop d) s = .next { s with
          sp := s.sp + 4#32
          regs := s.regs.set ⟨d.toNat, hd⟩ (s.mem.readByte (s.sp.toNat + 3) ++ s.mem.readByte (s.sp.toNat + 2) ++
            s.mem.readByte (s.sp.toNat + 1) ++ s.mem.readByte s.sp.toNat) }) ∧
      (0x2FC < s.sp.toNat → exec (.pop d) s = .next { s with halted := true, fault := some .outOfBounds })) ∧
    (4 ≤ d.toNat → exec (.pop d) s = .next { s with halted := true, fault := some .invalidRegister })

/-- From an empty stack, 64 PUSHes succeed, the k-th leaving `sp = 0x300 - 4k`, and the 65th raises `OutOfBounds`
(47_stack.md R210, 00_scope.md R6). -/
def Obligations.TheStackHoldsExactlySixtyFourWords : Prop :=
  ∀ (rs : List Byte) (s : State), (∀ r ∈ rs, r.toNat < 4) → s.sp = 0x300#32 → s.halted = false →
    (rs.length ≤ 64 →
      ∃ t, execAll (rs.map Instr.push) s = .next t ∧ t.sp.toNat = 0x300 - 4 * rs.length ∧ t.halted = false) ∧
    (64 < rs.length →
      ∃ t, execAll (rs.map Instr.push) s = .next t ∧ t.sp = 0x200#32 ∧ t.halted = true ∧ t.fault = some .outOfBounds)

/-! ### System -/

/-- HALT sets `halted` and changes nothing else: `fault` stays none and `pc` keeps the address of the HALT word
(48_system.md R220). -/
def Obligations.HaltSetsHaltedAlone : Prop :=
  ∀ (s : State) (x y z : Byte),
    decodeWord (0x19#8 ++ x ++ y ++ z) = .ok .halt ∧ exec .halt s = .next { s with halted := true } ∧
    (s.halted = false → s.pc.toNat < 0x100 → decodeWord (s.mem.readWord s.pc.toNat) = .ok .halt →
      step s = .next { s with halted := true })

/-- OUT appends the register's index and value to the trace and changes nothing else (48_system.md R221). -/
def Obligations.OutAppendsToTheTrace : Prop :=
  ∀ (s : State) (r x y : Byte),
    decodeWord (0x1A#8 ++ r ++ x ++ y) = .ok (.out r) ∧
    (∀ hr : r.toNat < 4,
      exec (.out r) s = .next { s with out := s.out ++ [(⟨r.toNat, hr⟩, s.regs.get ⟨r.toNat, hr⟩)] }) ∧
    (4 ≤ r.toNat → exec (.out r) s = .next { s with halted := true, fault := some .invalidRegister })
end

