-- ==== Sys2Proof/Laws/Config.lean ====
section
/-! SUPPORT. The memory map. -/

namespace Sys2Proof

/-- The four segments "cover the array exactly" and "do not overlap" (20_memory.md R51): an address exists exactly when
one segment, and no other, holds it. -/
theorem segments_partition (a : Nat) : a < memSize ↔ ∃! g, segmentBase g ≤ a ∧ a < segmentEnd g := by
  constructor
  · intro h
    simp only [memSize] at h
    obtain hc | hc | hc | hc : a < 0x100 ∨ (0x100 ≤ a ∧ a < 0x200) ∨ (0x200 ≤ a ∧ a < 0x300) ∨ 0x300 ≤ a := by omega
    · refine ⟨.code, by simp [segmentBase, segmentEnd]; omega, fun g hg => ?_⟩
      cases g <;> simp [segmentBase, segmentEnd] at hg ⊢ <;> omega
    · refine ⟨.data, by simp [segmentBase, segmentEnd]; omega, fun g hg => ?_⟩
      cases g <;> simp [segmentBase, segmentEnd] at hg ⊢ <;> omega
    · refine ⟨.stack, by simp [segmentBase, segmentEnd]; omega, fun g hg => ?_⟩
      cases g <;> simp [segmentBase, segmentEnd] at hg ⊢ <;> omega
    · refine ⟨.heap, by simp [segmentBase, segmentEnd]; omega, fun g hg => ?_⟩
      cases g <;> simp [segmentBase, segmentEnd] at hg ⊢ <;> omega
  · rintro ⟨g, hg, -⟩
    cases g <;> simp [segmentBase, segmentEnd] at hg ⊢ <;> omega

end Sys2Proof
end

