-- ==== Sys2Proof/Laws/Decode.lean ====
section
/-! SUPPORT. Byte order and field lemmas of the decoder. -/

namespace Sys2Proof

/-- The bytes of a little-endian word, one by one. -/
theorem wordByte_wordOfBytes (b0 b1 b2 b3 : Byte) :
    wordByte (wordOfBytes b0 b1 b2 b3) 0 = b0 ∧ wordByte (wordOfBytes b0 b1 b2 b3) 1 = b1 ∧
      wordByte (wordOfBytes b0 b1 b2 b3) 2 = b2 ∧ wordByte (wordOfBytes b0 b1 b2 b3) 3 = b3 := by
  refine ⟨?_, ?_, ?_, ?_⟩ <;>
  · apply BitVec.eq_of_getLsbD_eq
    intro i hi
    simp only [wordByte, wordOfBytes, BitVec.getLsbD_extractLsb', BitVec.getLsbD_append, hi, decide_true, Bool.true_and]
    interval_cases i <;> rfl

/-- A word is its four bytes, little-endian (20_memory.md R52). -/
theorem wordOfBytes_wordByte (w : Word) : wordOfBytes (wordByte w 0) (wordByte w 1) (wordByte w 2) (wordByte w 3) = w := by
  apply BitVec.eq_of_getLsbD_eq
  intro i hi
  simp only [wordByte, wordOfBytes, BitVec.getLsbD_extractLsb', BitVec.getLsbD_append]
  interval_cases i <;> rfl

/-- Decoding four bytes is decoding their word. -/
theorem decodeBytes_cons4 (b0 b1 b2 b3 : Byte) (rest : List Byte) :
    decodeBytes (b0 :: b1 :: b2 :: b3 :: rest) =
      match decodeWord (wordOfBytes b0 b1 b2 b3) with
      | .ok i => .ok (i, rest)
      | .error e => .error e := rfl

/-- Fewer than four bytes are no instruction. -/
theorem decodeBytes_short {bytes : List Byte} (h : bytes.length < 4) : decodeBytes bytes = .error .truncated := by
  match bytes, h with
  | [], _ => rfl
  | [_], _ => rfl
  | [_, _], _ => rfl
  | [_, _, _], _ => rfl

/-- The opcode byte of an instruction is an assigned one (30_encoding.md R84). -/
theorem opcode_lt (i : Instr) : i.opcode.toNat < 0x1B := by
  cases i <;> simp [Instr.opcode]

@[simp] theorem fields_opcode (i : Instr) : i.fields.opcode = i.opcode := by cases i <;> rfl

/-- The fields of a word put together from four bytes (30_encoding.md R81, R82). -/
theorem wordFields_append (o a b c : Byte) : wordFields (o ++ a ++ b ++ c : BitVec 32) = ⟨o, a, b, c⟩ := by
  obtain ⟨h0, h1, h2, h3⟩ := wordByte_wordOfBytes c b a o
  simp only [wordByte, wordOfBytes] at h0 h1 h2 h3
  simp only [wordFields, Fields.mk.injEq]
  exact ⟨h3, h2, h1, h0⟩

/-- Decoding such a word is reading its fields off the opcode map. -/
theorem decodeWord_append (o a b c : Byte) : decodeWord (o ++ a ++ b ++ c : BitVec 32) = instrOfFields ⟨o, a, b, c⟩ := by
  rw [decodeWord, wordFields_append]

/-- The opcode byte as a number is the word's top eight bits. -/
theorem wordFields_opcode_toNat (w : Word) : (wordFields w).opcode.toNat = w.toNat / 2 ^ 24 := by
  simp only [wordFields, BitVec.extractLsb'_toNat, Nat.shiftRight_eq_div_pow]
  omega

/-- `zext(b)` is the byte's value as a word (00_scope.md R8). -/
theorem setWidth_eq_ofNat (b : Byte) : b.setWidth 32 = BitVec.ofNat 32 b.toNat := by
  apply BitVec.eq_of_toNat_eq
  simp [BitVec.toNat_setWidth]

end Sys2Proof
end

