-- ==== Sys2Proof/Laws/Memory.lean ====
section
/-! SUPPORT. The memory laws: reading after a write, and that every memory operation keeps the canonical form. -/

namespace Sys2Proof.Machine

/-! ### One byte -/

theorem findByte_filter_ne (cells : List Host.Cell) (a b : Nat) (h : b ≠ a) :
    findByte (cells.filter fun c => c.1 ≠ a) b = findByte cells b := by
  induction cells with
  | nil => rfl
  | cons c rest ih =>
    by_cases hc : c.1 = a
    · have hb : c.1 ≠ b := fun h' => h (h'.symm.trans hc)
      simpa [findByte, hc, Ne.symm h] using ih
    · simp only [List.filter_cons, ne_eq, hc, not_false_eq_true, decide_true, if_true, findByte]
      rw [← ih]

theorem findByte_filter_same (cells : List Host.Cell) (a : Nat) :
    findByte (cells.filter fun c => c.1 ≠ a) a = unlistedByte := by
  induction cells with
  | nil => rfl
  | cons c rest ih =>
    by_cases hc : c.1 = a
    · simp only [List.filter_cons, ne_eq, hc, not_true, decide_false, Bool.false_eq_true, if_false]
      exact ih
    · simp only [List.filter_cons, ne_eq, hc, not_false_eq_true, decide_true, if_true, findByte, if_false]
      exact ih

theorem findByte_insertCell (cells : List Host.Cell) (a : Nat) (v : Byte) (b : Nat) (h : ∀ c ∈ cells, c.1 ≠ a) :
    findByte (insertCell a v cells) b = if b = a then v else findByte cells b := by
  induction cells with
  | nil => simp [insertCell, findByte, eq_comm]
  | cons c rest ih =>
    have hc : c.1 ≠ a := h c (by simp)
    have ih := ih fun c' hc' => h c' (by simp [hc'])
    unfold insertCell
    by_cases hlt : a < c.1
    · by_cases hb : b = a
      · simp [hlt, findByte, hb]
      · simp [hlt, findByte, hb, Ne.symm (a := b) hb]
    · rw [if_neg hlt]
      by_cases hb : b = a
      · subst hb
        simp only [findByte, hc, if_false, if_true] at ih ⊢
        exact ih
      · by_cases hcb : c.1 = b
        · simp [findByte, hcb, hb]
        · simp only [findByte, hcb, hb, if_false] at ih ⊢
          exact ih

/-- Reading any byte after a write of one: the written byte, and no other, has changed (20_memory.md R64). -/
theorem readByte_writeByte (m : Memory) (a : Nat) (v : Byte) (b : Nat) :
    (m.writeByte a v).readByte b = if b = a then v else m.readByte b := by
  unfold Memory.readByte Memory.writeByte
  by_cases hv : v = unlistedByte
  · simp only [hv, if_true]
    by_cases hb : b = a
    · subst hb
      simpa using findByte_filter_same m.cells b
    · simpa [hb] using findByte_filter_ne m.cells a b hb
  · simp only [hv, if_false]
    rw [findByte_insertCell _ _ _ _ (by simp)]
    by_cases hb : b = a
    · simp [hb]
    · simpa [hb] using findByte_filter_ne m.cells a b hb

@[simp] theorem readByte_writeByte_same (m : Memory) (a : Nat) (v : Byte) : (m.writeByte a v).readByte a = v := by
  simp [readByte_writeByte]

theorem readByte_writeByte_other (m : Memory) (a : Nat) (v : Byte) {b : Nat} (h : b ≠ a) :
    (m.writeByte a v).readByte b = m.readByte b := by
  simp [readByte_writeByte, h]

/-! ### The canonical form -/

theorem mem_insertCell {a : Nat} {v : Byte} {cells : List Host.Cell} {c : Host.Cell} (h : c ∈ insertCell a v cells) :
    c = (a, v) ∨ c ∈ cells := by
  induction cells with
  | nil => exact .inl (by simpa [insertCell] using h)
  | cons d rest ih =>
    unfold insertCell at h
    split at h
    · rcases List.mem_cons.mp h with h | h
      · exact .inl h
      · exact .inr h
    · rcases List.mem_cons.mp h with h | h
      · exact .inr (by simp [h])
      · exact (ih h).imp id fun h => by simp [h]

theorem pairwise_insertCell (a : Nat) (v : Byte) (cells : List Host.Cell)
    (hp : cells.Pairwise fun c d => c.1 < d.1) (ha : ∀ c ∈ cells, c.1 ≠ a) :
    (insertCell a v cells).Pairwise fun c d => c.1 < d.1 := by
  induction cells with
  | nil => simp [insertCell]
  | cons c rest ih =>
    rw [List.pairwise_cons] at hp
    have hc : c.1 ≠ a := ha c (by simp)
    unfold insertCell
    split
    · rename_i hlt
      refine List.pairwise_cons.mpr ⟨fun d hd => ?_, List.pairwise_cons.mpr hp⟩
      rcases List.mem_cons.mp hd with hd | hd
      · simpa [hd] using hlt
      · exact Nat.lt_trans hlt (hp.1 d hd)
    · refine List.pairwise_cons.mpr ⟨fun d hd => ?_, ih hp.2 fun d hd => ha d (by simp [hd])⟩
      rcases mem_insertCell hd with hd | hd
      · subst hd
        show c.1 < a
        omega
      · exact hp.1 d hd

/-- A write of one existing byte keeps the canonical form. -/
theorem wf_writeByte {m : Memory} (h : m.wf) {a : Nat} (ha : a < memSize) (v : Byte) : (m.writeByte a v).wf := by
  have hp : (m.cells.filter fun c => c.1 ≠ a).Pairwise fun c d => c.1 < d.1 := h.1.filter _
  have hk : ∀ c ∈ m.cells.filter (fun c => c.1 ≠ a), c.1 < memSize ∧ c.2 ≠ unlistedByte :=
    fun c hc => h.2 c (List.mem_filter.mp hc).1
  unfold Memory.writeByte Memory.wf
  by_cases hv : v = unlistedByte
  · simp only [hv, if_true]
    exact ⟨hp, hk⟩
  · simp only [hv, if_false]
    refine ⟨pairwise_insertCell a v _ hp (by simp), fun c hc => ?_⟩
    rcases mem_insertCell hc with hc | hc
    · subst hc
      exact ⟨ha, hv⟩
    · exact hk c hc

/-! ### A word -/

/-- Reading any byte after a write of a word. -/
theorem readByte_writeWord (m : Memory) (a : Nat) (v : Word) (b : Nat) :
    (m.writeWord a v).readByte b =
      if b = a + 3 then wordByte v 3 else if b = a + 2 then wordByte v 2 else if b = a + 1 then wordByte v 1
      else if b = a then wordByte v 0 else m.readByte b := by
  simp only [Memory.writeWord, readByte_writeByte]

/-- A byte outside the four written ones is unchanged. -/
theorem readByte_writeWord_other (m : Memory) (a : Nat) (v : Word) {b : Nat} (h : b < a ∨ a + 4 ≤ b) :
    (m.writeWord a v).readByte b = m.readByte b := by
  rw [readByte_writeWord, if_neg (by omega), if_neg (by omega), if_neg (by omega), if_neg (by omega)]

/-- The word written is the word read back. -/
@[simp] theorem readWord_writeWord_same (m : Memory) (a : Nat) (v : Word) : (m.writeWord a v).readWord a = v := by
  simp only [Memory.readWord, readByte_writeWord, Nat.left_eq_add, Nat.add_left_cancel_iff, Nat.add_eq_left, if_true,
    if_false, OfNat.ofNat_ne_zero, one_ne_zero, OfNat.ofNat_ne_one, OfNat.one_ne_ofNat, Nat.reduceEqDiff]
  exact wordOfBytes_wordByte v

/-- A word that shares no byte with the written one is unchanged. -/
theorem readWord_writeWord_other (m : Memory) (a : Nat) (v : Word) {b : Nat} (h : b + 4 ≤ a ∨ a + 4 ≤ b) :
    (m.writeWord a v).readWord b = m.readWord b := by
  unfold Memory.readWord
  rw [readByte_writeWord_other, readByte_writeWord_other, readByte_writeWord_other, readByte_writeWord_other] <;> omega

/-- A write of an existing word keeps the canonical form. -/
theorem wf_writeWord {m : Memory} (h : m.wf) {a : Nat} (ha : a + 4 ≤ memSize) (v : Word) : (m.writeWord a v).wf := by
  simp only [memSize] at ha
  unfold Memory.writeWord
  refine wf_writeByte (wf_writeByte (wf_writeByte (wf_writeByte h ?_ _) ?_ _) ?_ _) ?_ _ <;>
    simp only [memSize] <;> omega

/-- Bytes written one after another keep the canonical form. -/
theorem wf_writeBytes {m : Memory} (h : m.wf) (a : Nat) (bytes : List Byte) (ha : a + bytes.length ≤ memSize) :
    (m.writeBytes a bytes).wf := by
  induction bytes generalizing m a with
  | nil => exact h
  | cons b rest ih =>
    simp only [List.length_cons, memSize] at ha
    exact ih (wf_writeByte h (by simp only [memSize]; omega) b) (a + 1) (by simp only [memSize]; omega)

/-- Reading any byte after bytes were written one after another. -/
theorem readByte_writeBytes (m : Memory) (a : Nat) (bytes : List Byte) (b : Nat) :
    (m.writeBytes a bytes).readByte b =
      if h : a ≤ b ∧ b < a + bytes.length then bytes[b - a]'(by omega) else m.readByte b := by
  induction bytes generalizing m a with
  | nil => simp [Memory.writeBytes]
  | cons c rest ih =>
    rw [Memory.writeBytes, ih, readByte_writeByte]
    by_cases hb : b = a
    · subst hb
      simp
    · by_cases hin : a + 1 ≤ b ∧ b < a + 1 + rest.length
      · have h1 : a ≤ b ∧ b < a + (c :: rest).length := by simp only [List.length_cons]; omega
        have h2 : b - a = (b - (a + 1)) + 1 := by omega
        simp only [hin, h1, and_self, dif_pos, h2, List.getElem_cons_succ]
      · have h1 : ¬(a ≤ b ∧ b < a + (c :: rest).length) := by simp only [List.length_cons]; omega
        simp only [hin, h1, dif_neg, not_false_eq_true, hb, if_false]

/-- Reset's memory has the canonical form. -/
theorem wf_reset : State.reset.mem.wf := ⟨List.Pairwise.nil, by simp [State.reset]⟩

/-- `MemWrite` keeps the canonical form (20_memory.md R55). -/
theorem wf_memWrite {m m' : Memory} {addr v : Word} (h : m.wf) (hw : memWrite m addr v = .ok m') : m'.wf := by
  unfold memWrite at hw
  split at hw
  · rename_i hb
    cases hw
    exact wf_writeWord h (of_decide_eq_true hb) v
  · cases hw

/-- Reset's memory has the canonical form, whatever `MEM_INIT` is. -/
theorem wf_resetWith (p : Params) (image : List Byte) : (State.resetWith p image).mem.wf := by
  refine wf_writeBytes ⟨List.Pairwise.nil, by simp⟩ 0 _ ?_
  simp only [memSize, List.length_take]
  omega

end Sys2Proof.Machine
end

