-- ==== Sys2Proof/Laws/State.lean ====
section
/-! SUPPORT. One lemma per field per update of the state, and the register file's read after write. -/

namespace Sys2Proof.Machine

section Raise
variable (s : State) (f : RunFault)
@[simp] theorem raise_regs : (s.raise f).regs = s.regs := rfl
@[simp] theorem raise_pc : (s.raise f).pc = s.pc := rfl
@[simp] theorem raise_sp : (s.raise f).sp = s.sp := rfl
@[simp] theorem raise_hp : (s.raise f).hp = s.hp := rfl
@[simp] theorem raise_flags : (s.raise f).flags = s.flags := rfl
@[simp] theorem raise_halted : (s.raise f).halted = true := rfl
@[simp] theorem raise_fault : (s.raise f).fault = some f := rfl
@[simp] theorem raise_mem : (s.raise f).mem = s.mem := rfl
@[simp] theorem raise_out : (s.raise f).out = s.out := rfl
@[simp] theorem raise_params : (s.raise f).params = s.params := rfl
end Raise

section SetReg
variable (s : State) (i : Fin 4) (v : Word)
@[simp] theorem setReg_regs : (s.setReg i v).regs = s.regs.set i v := rfl
@[simp] theorem setReg_pc : (s.setReg i v).pc = s.pc := rfl
@[simp] theorem setReg_sp : (s.setReg i v).sp = s.sp := rfl
@[simp] theorem setReg_hp : (s.setReg i v).hp = s.hp := rfl
@[simp] theorem setReg_flags : (s.setReg i v).flags = s.flags := rfl
@[simp] theorem setReg_halted : (s.setReg i v).halted = s.halted := rfl
@[simp] theorem setReg_fault : (s.setReg i v).fault = s.fault := rfl
@[simp] theorem setReg_mem : (s.setReg i v).mem = s.mem := rfl
@[simp] theorem setReg_out : (s.setReg i v).out = s.out := rfl
@[simp] theorem setReg_params : (s.setReg i v).params = s.params := rfl
end SetReg

section SetFlags
variable (s : State) (r : Word) (ovf : Bool)
@[simp] theorem setFlags_regs : (s.setFlags r ovf).regs = s.regs := rfl
@[simp] theorem setFlags_pc : (s.setFlags r ovf).pc = s.pc := rfl
@[simp] theorem setFlags_sp : (s.setFlags r ovf).sp = s.sp := rfl
@[simp] theorem setFlags_hp : (s.setFlags r ovf).hp = s.hp := rfl
@[simp] theorem setFlags_flags : (s.setFlags r ovf).flags = flagsOf r ovf := rfl
@[simp] theorem setFlags_halted : (s.setFlags r ovf).halted = s.halted := rfl
@[simp] theorem setFlags_fault : (s.setFlags r ovf).fault = s.fault := rfl
@[simp] theorem setFlags_mem : (s.setFlags r ovf).mem = s.mem := rfl
@[simp] theorem setFlags_out : (s.setFlags r ovf).out = s.out := rfl
@[simp] theorem setFlags_params : (s.setFlags r ovf).params = s.params := rfl
end SetFlags

section FlagsOf
variable (r : Word) (ovf : Bool)
@[simp] theorem flagsOf_z : (flagsOf r ovf).z = decide (r = 0) := rfl
@[simp] theorem flagsOf_n : (flagsOf r ovf).n = r.msb := rfl
@[simp] theorem flagsOf_o : (flagsOf r ovf).o = ovf := rfl
end FlagsOf

/-- Reading any register after a write: the written one holds the value, no other changes. -/
theorem get_set (r : RegFile) (i j : Fin 4) (v : Word) : (r.set i v).get j = if j = i then v else r.get j := by
  fin_cases i <;> fin_cases j <;> rfl

@[simp] theorem get_set_same (r : RegFile) (i : Fin 4) (v : Word) : (r.set i v).get i = v := by simp [get_set]

@[simp] theorem get_set_other (r : RegFile) {i j : Fin 4} (v : Word) (h : j ≠ i) : (r.set i v).get j = r.get j := by
  simp [get_set, h]

/-- A register file is its four reads. -/
theorem regFile_ext (r r' : RegFile) (h : ∀ i, r.get i = r'.get i) : r = r' := by
  obtain ⟨a, b, c, d⟩ := r
  obtain ⟨a', b', c', d'⟩ := r'
  have h0 : a = a' := h 0
  have h1 : b = b' := h 1
  have h2 : c = c' := h 2
  have h3 : d = d' := h 3
  rw [h0, h1, h2, h3]

end Sys2Proof.Machine
end

