-- ==== Sys2Proof/Laws/Ops.lean ====
section
/-! SUPPORT. One lemma per shared operation that says once everything it can do. -/

namespace Sys2Proof.Machine

/-! ### Sequencing -/

@[simp] theorem ok_bind {α β : Type} (a : α) (f : α → Except RunFault β) : (Except.ok a >>= f) = f a := rfl

@[simp] theorem error_bind {α β : Type} (e : RunFault) (f : α → Except RunFault β) :
    ((Except.error e : Except RunFault α) >>= f) = .error e := rfl

@[simp] theorem pure_eq_ok {α : Type} (a : α) : (pure a : Except RunFault α) = .ok a := rfl

/-- A sequence completes exactly when its first part completes and the rest completes on what it answered. -/
theorem bind_ok {α β : Type} {x : Except RunFault α} {f : α → Except RunFault β} {b : β} :
    (x >>= f) = .ok b ↔ ∃ a, x = .ok a ∧ f a = .ok b := by
  cases x <;> simp

/-- A sequence faults exactly when its first part faults, or the rest faults on what it answered. -/
theorem bind_error {α β : Type} {x : Except RunFault α} {f : α → Except RunFault β} {e : RunFault} :
    (x >>= f) = .error e ↔ x = .error e ∨ ∃ a, x = .ok a ∧ f a = .error e := by
  cases x <;> simp

@[simp] theorem conclude_ok (s t : State) : conclude s (.ok t) = .next t := rfl

@[simp] theorem conclude_error (s : State) (f : RunFault) : conclude s (.error f) = .next (s.raise f) := rfl

/-- An instruction ends in the state its checks allowed, or in a fault raised from the state before it. -/
theorem conclude_next {s t : State} {r : Except RunFault State} :
    conclude s r = .next t ↔ r = .ok t ∨ ∃ f, r = .error f ∧ t = s.raise f := by
  cases r <;> simp [eq_comm]

/-! ### The index check -/

theorem regIndex_of_lt {op : Byte} (h : op.toNat < 4) : regIndex op = .ok ⟨op.toNat, h⟩ := by simp [regIndex, h]

theorem regIndex_of_ge {op : Byte} (h : 4 ≤ op.toNat) : regIndex op = .error .invalidRegister := by
  simp [regIndex, Nat.not_lt.mpr h]

theorem regIndex_ok {op : Byte} {i : Fin 4} : regIndex op = .ok i ↔ op.toNat = i.val := by
  unfold regIndex
  split
  · simp [Fin.ext_iff]
  · rename_i h
    simp only [reduceCtorEq, false_iff]
    omega

theorem regIndex_error {op : Byte} {f : RunFault} : regIndex op = .error f ↔ 4 ≤ op.toNat ∧ f = .invalidRegister := by
  unfold regIndex
  split
  · rename_i h
    simp only [reduceCtorEq, false_iff]
    omega
  · rename_i h
    simp [Nat.not_lt.mp h, eq_comm]

/-! ### Memory accesses -/

theorem inBounds_iff {addr : Word} : inBounds addr = true ↔ addr.toNat + 4 ≤ memSize := decide_eq_true_iff

theorem memRead_ok {m : Memory} {addr v : Word} :
    memRead m addr = .ok v ↔ inBounds addr = true ∧ v = m.readWord addr.toNat := by
  unfold memRead
  split <;> simp [*, eq_comm (b := v)]

theorem memRead_error {m : Memory} {addr : Word} {f : RunFault} :
    memRead m addr = .error f ↔ inBounds addr = false ∧ f = .outOfBounds := by
  unfold memRead
  split <;> simp [*, eq_comm (b := f)]

theorem memWrite_ok {m m' : Memory} {addr v : Word} :
    memWrite m addr v = .ok m' ↔ inBounds addr = true ∧ m' = m.writeWord addr.toNat v := by
  unfold memWrite
  split <;> simp [*, eq_comm (b := m')]

theorem memWrite_error {m : Memory} {addr v : Word} {f : RunFault} :
    memWrite m addr v = .error f ↔ inBounds addr = false ∧ f = .outOfBounds := by
  unfold memWrite
  split <;> simp [*, eq_comm (b := f)]

theorem dataWrite_ok {s : State} {addr v : Word} {m : Memory} :
    dataWrite s addr v = .ok m ↔
      alignmentOk s.params addr = true ∧ inBounds addr = true ∧ m = s.mem.writeWord addr.toNat v := by
  unfold dataWrite
  split <;> simp [*, memWrite_ok]

theorem dataWrite_error {s : State} {addr v : Word} {f : RunFault} :
    dataWrite s addr v = .error f ↔
      (alignmentOk s.params addr = false ∨ inBounds addr = false) ∧ f = .outOfBounds := by
  unfold dataWrite
  split <;> simp [*, memWrite_error, eq_comm (b := f)]

theorem dataRead_ok {s : State} {addr v : Word} :
    dataRead s addr = .ok v ↔
      alignmentOk s.params addr = true ∧ inBounds addr = true ∧ v = s.mem.readWord addr.toNat := by
  unfold dataRead
  split <;> simp [*, memRead_ok]

theorem dataRead_error {s : State} {addr : Word} {f : RunFault} :
    dataRead s addr = .error f ↔
      (alignmentOk s.params addr = false ∨ inBounds addr = false) ∧ f = .outOfBounds := by
  unfold dataRead
  split <;> simp [*, memRead_error, eq_comm (b := f)]

/-! ### The stack -/

theorem pushOk_iff {sp : Word} : pushOk sp = true ↔ stackBase + 4 ≤ sp.toNat := decide_eq_true_iff

theorem popOk_iff {sp : Word} : popOk sp = true ↔ sp.toNat + 4 ≤ stackEnd := decide_eq_true_iff

/-- `sp - 4` does not wrap above 3. -/
theorem sub_four_toNat {sp : Word} (h : 4 ≤ sp.toNat) : (sp - 4#32).toNat = sp.toNat - 4 := by
  rw [BitVec.toNat_sub_of_le]
  · rfl
  · rw [BitVec.le_def]
    exact h

/-- A push that completes: the range was free, the word stands below the old `sp`, nothing else changed. -/
theorem pushWord_ok {s t : State} {v : Word} :
    pushWord s v = .ok t ↔
      pushOk s.sp = true ∧ inBounds (s.sp - 4#32) = true ∧
        t = { s with sp := s.sp - 4#32, mem := s.mem.writeWord (s.sp - 4#32).toNat v } := by
  unfold pushWord memWrite
  generalize s.sp - 4#32 = a
  by_cases hp : pushOk s.sp = true <;> by_cases hb : inBounds a = true <;> simp [hp, hb, eq_comm (b := t)]

/-- A push that faults raises `OutOfBounds`. -/
theorem pushWord_error {s : State} {v : Word} {f : RunFault} :
    pushWord s v = .error f ↔ (pushOk s.sp = false ∨ inBounds (s.sp - 4#32) = false) ∧ f = .outOfBounds := by
  unfold pushWord memWrite
  generalize s.sp - 4#32 = a
  by_cases hp : pushOk s.sp = true <;> by_cases hb : inBounds a = true <;> simp [hp, hb, eq_comm (b := f)]

/-- A pop that completes: the word at `sp`, and `sp` moved up; memory is as it was. -/
theorem popWord_ok {s t : State} {v : Word} :
    popWord s = .ok (v, t) ↔
      popOk s.sp = true ∧ inBounds s.sp = true ∧ v = s.mem.readWord s.sp.toNat ∧ t = { s with sp := s.sp + 4#32 } := by
  unfold popWord memRead
  by_cases hp : popOk s.sp = true <;> by_cases hb : inBounds s.sp = true <;>
    simp [hp, hb, eq_comm (b := t), eq_comm (b := v)]

/-- A pop that faults raises `OutOfBounds`, and only for its range: an `sp` that passes it is in bounds. -/
theorem popWord_error {s : State} {f : RunFault} :
    popWord s = .error f ↔ popOk s.sp = false ∧ f = .outOfBounds := by
  unfold popWord
  split
  · rename_i hpop
    have hb : inBounds s.sp = true := by
      have := popOk_iff.mp hpop
      simp only [stackEnd] at this
      exact inBounds_iff.mpr (by simp only [memSize]; omega)
    rw [memRead_ok.mpr ⟨hb, rfl⟩]
    simp [hpop]
  · rename_i hpop
    simp [hpop, eq_comm (b := f)]

/-! ### The operand resolver -/

@[simp] theorem resolve_immediate (s : State) (op : Byte) : resolve s op .immediate = .ok (op.setWidth 32) := rfl

@[simp] theorem resolve_register (s : State) (op : Byte) : resolve s op .register = resolveRegister s op := rfl

theorem resolveRegister_ok {s : State} {op : Byte} {v : Word} :
    resolveRegister s op = .ok v ↔ ∃ i, regIndex op = .ok i ∧ v = s.regs.get i := by
  unfold resolveRegister
  split <;> simp [*, eq_comm (b := v)]

theorem resolveRegister_error {s : State} {op : Byte} {f : RunFault} :
    resolveRegister s op = .error f ↔ regIndex op = .error f := by
  unfold resolveRegister
  split <;> simp [*]

/-- The slots of an opcode that are resolved in Register mode (30_encoding.md R86). -/
theorem resolveSlot_register (s : State) {opcode : Byte} {slot : Slot} (op : Byte)
    (h : modeTable opcode slot = .register) : resolveSlot s opcode slot op = resolveRegister s op := by
  simp [resolveSlot, h]

/-- The slots of an opcode that are resolved in Immediate mode (30_encoding.md R86). -/
theorem resolveSlot_immediate (s : State) {opcode : Byte} {slot : Slot} (op : Byte)
    (h : modeTable opcode slot = .immediate) : resolveSlot s opcode slot op = .ok (op.setWidth 32) := by
  simp [resolveSlot, h]

/-- A two-source instruction that completes: its three operands name registers, the operation completed on the two
sources as they were, and its result stands in the destination. -/
theorem binaryResult_ok {s t : State} {opcode : Byte} {f : State → Word → Word → Except RunFault (Word × State)}
    {d s1 s2 : Byte} (h1 : modeTable opcode .op1 = .register) (h2 : modeTable opcode .op2 = .register) :
    binaryResult s opcode f d s1 s2 = .ok t ↔
      ∃ i1 i2 i r u, regIndex s1 = .ok i1 ∧ regIndex s2 = .ok i2 ∧ regIndex d = .ok i ∧
        f s (s.regs.get i1) (s.regs.get i2) = .ok (r, u) ∧ t = u.setReg i r := by
  simp only [binaryResult, resolveSlot_register s _ h1, resolveSlot_register s _ h2, bind_ok, resolveRegister_ok]
  constructor
  · rintro ⟨_, ⟨i1, e1, rfl⟩, _, ⟨i2, e2, rfl⟩, i, e, ⟨r, u⟩, ef, ht⟩
    exact ⟨i1, i2, i, r, u, e1, e2, e, ef, by simpa [eq_comm] using ht⟩
  · rintro ⟨i1, i2, i, r, u, e1, e2, e, ef, rfl⟩
    exact ⟨_, ⟨i1, e1, rfl⟩, _, ⟨i2, e2, rfl⟩, i, e, (r, u), ef, rfl⟩

/-- A two-source instruction that faults: an operand names no register, or the operation faulted. -/
theorem binaryResult_error {s : State} {opcode : Byte} {f : State → Word → Word → Except RunFault (Word × State)}
    {d s1 s2 : Byte} {e : RunFault} (h1 : modeTable opcode .op1 = .register) (h2 : modeTable opcode .op2 = .register)
    (h : binaryResult s opcode f d s1 s2 = .error e) :
    ((4 ≤ s1.toNat ∨ 4 ≤ s2.toNat ∨ 4 ≤ d.toNat) ∧ e = .invalidRegister) ∨
      ∃ i1 i2 i, regIndex s1 = .ok i1 ∧ regIndex s2 = .ok i2 ∧ regIndex d = .ok i ∧
        f s (s.regs.get i1) (s.regs.get i2) = .error e := by
  simp only [binaryResult, resolveSlot_register s _ h1, resolveSlot_register s _ h2, bind_error, resolveRegister_ok,
    resolveRegister_error, regIndex_error] at h
  rcases h with ⟨h, he⟩ | ⟨_, ⟨i1, e1, rfl⟩, ⟨h, he⟩ | ⟨_, ⟨i2, e2, rfl⟩, ⟨h, he⟩ | ⟨i, e3, h | ⟨a, _, h⟩⟩⟩⟩
  · exact .inl ⟨.inl h, he⟩
  · exact .inl ⟨.inr (.inl h), he⟩
  · exact .inl ⟨.inr (.inr h), he⟩
  · exact .inr ⟨i1, i2, i, e1, e2, e3, h⟩
  · simp at h

/-- A two-source instruction with an operand that names no register faults with `InvalidRegister`. -/
theorem binaryResult_invalid {s : State} {opcode : Byte} {f : State → Word → Word → Except RunFault (Word × State)}
    {d s1 s2 : Byte} (h1 : modeTable opcode .op1 = .register) (h2 : modeTable opcode .op2 = .register)
    (h : 4 ≤ s1.toNat ∨ 4 ≤ s2.toNat ∨ 4 ≤ d.toNat) : binaryResult s opcode f d s1 s2 = .error .invalidRegister := by
  cases hr : binaryResult s opcode f d s1 s2 with
  | ok t =>
    obtain ⟨i1, i2, i, _, _, e1, e2, e, _, _⟩ := (binaryResult_ok h1 h2).mp hr
    rw [regIndex_ok] at e1 e2 e
    omega
  | error e =>
    rcases binaryResult_error h1 h2 hr with ⟨_, rfl⟩ | ⟨i1, i2, i, e1, e2, e3, _⟩
    · rfl
    · rw [regIndex_ok] at e1 e2 e3
      omega

/-- A two-source instruction whose operands name registers, as an equation on its operation's answer. -/
theorem binaryResult_of_lt {s : State} {opcode : Byte} {f : State → Word → Word → Except RunFault (Word × State)}
    {d s1 s2 : Byte} (h1 : modeTable opcode .op1 = .register) (h2 : modeTable opcode .op2 = .register)
    (hd : d.toNat < 4) (ha : s1.toNat < 4) (hb : s2.toNat < 4) :
    binaryResult s opcode f d s1 s2 =
      match f s (s.regs.get ⟨s1.toNat, ha⟩) (s.regs.get ⟨s2.toNat, hb⟩) with
      | .ok (r, u) => .ok (u.setReg ⟨d.toNat, hd⟩ r)
      | .error e => .error e := by
  simp only [binaryResult, resolveSlot_register _ _ h1, resolveSlot_register _ _ h2, resolveRegister, regIndex_of_lt,
    hd, ha, hb, ok_bind]
  cases f s (s.regs.get ⟨s1.toNat, ha⟩) (s.regs.get ⟨s2.toNat, hb⟩) <;> rfl

/-- A one-source instruction that completes. -/
theorem unaryResult_ok {s t : State} {opcode : Byte} {f : Word → Word} {d s1 : Byte}
    (h1 : modeTable opcode .op1 = .register) :
    unaryResult s opcode f d s1 = .ok t ↔
      ∃ i1 i, regIndex s1 = .ok i1 ∧ regIndex d = .ok i ∧ t = s.setReg i (f (s.regs.get i1)) := by
  simp only [unaryResult, resolveSlot_register s _ h1, bind_ok, resolveRegister_ok]
  constructor
  · rintro ⟨_, ⟨i1, e1, rfl⟩, i, e, ht⟩
    exact ⟨i1, i, e1, e, by simpa [eq_comm] using ht⟩
  · rintro ⟨i1, i, e1, e, rfl⟩
    exact ⟨_, ⟨i1, e1, rfl⟩, i, e, rfl⟩

/-! ### The operations given to the two-source instructions -/

@[simp] theorem direct_ok (f : Word → Word → Word) (s : State) (a b : Word) : direct f s a b = .ok (f a b, s) := rfl

@[simp] theorem viaAlu_ok (f : State → Word → Word → Word × State) (s : State) (a b : Word) :
    viaAlu f s a b = .ok (f s a b) := rfl

@[simp] theorem withFlags_eq (s : State) (r : Word) (ovf : Bool) : withFlags s r ovf = (r, s.setFlags r ovf) := rfl

end Sys2Proof.Machine
end

