-- ==== Sys2Proof/Laws/Exec.lean ====
section
/-! SUPPORT. What the result functions behind the meanings can do, one lemma for completing and one for faulting, and the
dispatch as equations. -/

namespace Sys2Proof.Machine

/-! ### Data transfer -/

theorem loadResult_ok {s t : State} {d imm : Byte} :
    loadResult s d imm = .ok t ↔ ∃ i, regIndex d = .ok i ∧ t = s.setReg i (imm.setWidth 32) := by
  simp [loadResult, resolveSlot_immediate s imm (show modeTable 0x10#8 .op1 = .immediate from rfl), bind_ok,
    eq_comm (b := t)]

theorem loadResult_error {s : State} {d imm : Byte} {f : RunFault} :
    loadResult s d imm = .error f ↔ 4 ≤ d.toNat ∧ f = .invalidRegister := by
  simp [loadResult, resolveSlot_immediate s imm (show modeTable 0x10#8 .op1 = .immediate from rfl), bind_error,
    regIndex_error]

theorem storeResult_ok {s t : State} {v a : Byte} :
    storeResult s v a = .ok t ↔
      ∃ iv ia, regIndex v = .ok iv ∧ regIndex a = .ok ia ∧ alignmentOk s.params (s.regs.get ia) = true ∧
        inBounds (s.regs.get ia) = true ∧
        t = { s with mem := s.mem.writeWord (s.regs.get ia).toNat (s.regs.get iv) } := by
  simp only [storeResult, resolveSlot_register s v (show modeTable 0x11#8 .op0 = .register from rfl),
    resolveSlot_register s a (show modeTable 0x11#8 .op1 = .register from rfl), bind_ok, resolveRegister_ok, dataWrite_ok]
  constructor
  · rintro ⟨_, ⟨iv, ev, rfl⟩, _, ⟨ia, ea, rfl⟩, m, ⟨hal, hb, rfl⟩, ht⟩
    exact ⟨iv, ia, ev, ea, hal, hb, by simpa [eq_comm] using ht⟩
  · rintro ⟨iv, ia, ev, ea, hal, hb, rfl⟩
    exact ⟨_, ⟨iv, ev, rfl⟩, _, ⟨ia, ea, rfl⟩, _, ⟨hal, hb, rfl⟩, rfl⟩

theorem storeResult_error {s : State} {v a : Byte} {f : RunFault} :
    storeResult s v a = .error f ↔
      ((4 ≤ v.toNat ∨ 4 ≤ a.toNat) ∧ f = .invalidRegister) ∨
        ∃ iv ia, regIndex v = .ok iv ∧ regIndex a = .ok ia ∧
          (alignmentOk s.params (s.regs.get ia) = false ∨ inBounds (s.regs.get ia) = false) ∧ f = .outOfBounds := by
  simp only [storeResult, resolveSlot_register s v (show modeTable 0x11#8 .op0 = .register from rfl),
    resolveSlot_register s a (show modeTable 0x11#8 .op1 = .register from rfl), bind_error, resolveRegister_ok,
    resolveRegister_error, regIndex_error, dataWrite_error]
  constructor
  · rintro (⟨h, rfl⟩ | ⟨_, ⟨iv, ev, rfl⟩, ⟨h, rfl⟩ | ⟨_, ⟨ia, ea, rfl⟩, ⟨h, rfl⟩ | ⟨_, _, h⟩⟩⟩)
    · exact .inl ⟨.inl h, rfl⟩
    · exact .inl ⟨.inr h, rfl⟩
    · exact .inr ⟨iv, ia, ev, ea, h, rfl⟩
    · simp at h
  · rintro (⟨h, rfl⟩ | ⟨iv, ia, ev, ea, h, rfl⟩)
    · by_cases hv : 4 ≤ v.toNat
      · exact .inl ⟨hv, rfl⟩
      · exact .inr ⟨_, ⟨_, regIndex_of_lt (Nat.not_le.mp hv), rfl⟩, .inl ⟨h.resolve_left hv, rfl⟩⟩
    · exact .inr ⟨_, ⟨iv, ev, rfl⟩, .inr ⟨_, ⟨ia, ea, rfl⟩, .inl ⟨h, rfl⟩⟩⟩

/-! ### Control transfer -/

/-- A jump taken writes its literal target, under each of the three jump opcodes. -/
theorem jumpTo_eq (s : State) {opcode : Byte} (tgt : Byte) (h : modeTable opcode .op0 = .immediate) :
    jumpTo s opcode tgt = .ok { s with pc := tgt.setWidth 32 } := by
  simp [jumpTo, resolveSlot_immediate s tgt h]

theorem callResult_ok {s t : State} {s1 : Byte} :
    callResult s s1 = .ok t ↔
      ∃ i, regIndex s1 = .ok i ∧ pushOk s.sp = true ∧ inBounds (s.sp - 4#32) = true ∧
        t = { s with pc := s.regs.get i, sp := s.sp - 4#32, mem := s.mem.writeWord (s.sp - 4#32).toNat s.pc } := by
  simp only [callResult, resolve_register, bind_ok, resolveRegister_ok, pushWord_ok]
  constructor
  · rintro ⟨_, ⟨i, e, rfl⟩, _, ⟨hp, hb, rfl⟩, ht⟩
    exact ⟨i, e, hp, hb, by simpa [eq_comm] using ht⟩
  · rintro ⟨i, e, hp, hb, rfl⟩
    exact ⟨_, ⟨i, e, rfl⟩, _, ⟨hp, hb, rfl⟩, rfl⟩

theorem callResult_error {s : State} {s1 : Byte} {f : RunFault} :
    callResult s s1 = .error f ↔
      (4 ≤ s1.toNat ∧ f = .invalidRegister) ∨
        (s1.toNat < 4 ∧ (pushOk s.sp = false ∨ inBounds (s.sp - 4#32) = false) ∧ f = .outOfBounds) := by
  by_cases h : s1.toNat < 4
  · simp [callResult, resolveRegister, regIndex_of_lt h, bind_error, pushWord_error, h, Nat.not_le.mpr h]
  · simp [callResult, resolveRegister, regIndex_of_ge (Nat.not_lt.mp h), h, Nat.not_lt.mp h, eq_comm (b := f)]

theorem retResult_ok {s t : State} :
    retResult s = .ok t ↔
      popOk s.sp = true ∧ inBounds s.sp = true ∧ t = { s with pc := s.mem.readWord s.sp.toNat, sp := s.sp + 4#32 } := by
  simp only [retResult, bind_ok]
  constructor
  · rintro ⟨⟨v, u⟩, hp, ht⟩
    obtain ⟨h1, h2, rfl, rfl⟩ := popWord_ok.mp hp
    exact ⟨h1, h2, by simpa [eq_comm] using ht⟩
  · rintro ⟨h1, h2, rfl⟩
    exact ⟨(_, _), popWord_ok.mpr ⟨h1, h2, rfl, rfl⟩, rfl⟩

theorem retResult_error {s : State} {f : RunFault} :
    retResult s = .error f ↔ popOk s.sp = false ∧ f = .outOfBounds := by
  simp [retResult, bind_error, popWord_error]

/-! ### Stack -/

theorem pushResult_ok {s t : State} {s1 : Byte} :
    pushResult s s1 = .ok t ↔
      ∃ i, regIndex s1 = .ok i ∧ pushOk s.sp = true ∧ inBounds (s.sp - 4#32) = true ∧
        t = { s with sp := s.sp - 4#32, mem := s.mem.writeWord (s.sp - 4#32).toNat (s.regs.get i) } := by
  simp only [pushResult, resolveSlot_register s s1 (show modeTable 0x17#8 .op0 = .register from rfl), bind_ok,
    resolveRegister_ok, pushWord_ok]
  constructor
  · rintro ⟨_, ⟨i, e, rfl⟩, h⟩
    exact ⟨i, e, h⟩
  · rintro ⟨i, e, h⟩
    exact ⟨_, ⟨i, e, rfl⟩, h⟩

theorem pushResult_error {s : State} {s1 : Byte} {f : RunFault} :
    pushResult s s1 = .error f ↔
      (4 ≤ s1.toNat ∧ f = .invalidRegister) ∨
        (s1.toNat < 4 ∧ (pushOk s.sp = false ∨ inBounds (s.sp - 4#32) = false) ∧ f = .outOfBounds) := by
  rw [pushResult, resolveSlot_register s s1 (show modeTable 0x17#8 .op0 = .register from rfl)]
  by_cases h : s1.toNat < 4
  · simp [resolveRegister, regIndex_of_lt h, pushWord_error, h, Nat.not_le.mpr h]
  · simp [resolveRegister, regIndex_of_ge (Nat.not_lt.mp h), h, Nat.not_lt.mp h, eq_comm (b := f)]

theorem popResult_ok {s t : State} {d : Byte} :
    popResult s d = .ok t ↔
      ∃ i, regIndex d = .ok i ∧ popOk s.sp = true ∧ inBounds s.sp = true ∧
        t = { s with sp := s.sp + 4#32, regs := s.regs.set i (s.mem.readWord s.sp.toNat) } := by
  simp only [popResult, bind_ok]
  constructor
  · rintro ⟨i, e, ⟨v, u⟩, hp, ht⟩
    obtain ⟨h1, h2, rfl, rfl⟩ := popWord_ok.mp hp
    exact ⟨i, e, h1, h2, by simpa [State.setReg, eq_comm] using ht⟩
  · rintro ⟨i, e, h1, h2, rfl⟩
    exact ⟨i, e, (_, _), popWord_ok.mpr ⟨h1, h2, rfl, rfl⟩, rfl⟩

theorem popResult_error {s : State} {d : Byte} {f : RunFault} :
    popResult s d = .error f ↔
      (4 ≤ d.toNat ∧ f = .invalidRegister) ∨ (d.toNat < 4 ∧ popOk s.sp = false ∧ f = .outOfBounds) := by
  by_cases h : d.toNat < 4
  · simp [popResult, regIndex_of_lt h, bind_error, popWord_error, h, Nat.not_le.mpr h]
  · simp [popResult, regIndex_of_ge (Nat.not_lt.mp h), h, Nat.not_lt.mp h, eq_comm (b := f)]

/-! ### System -/

theorem outResult_ok {s t : State} {s1 : Byte} :
    outResult s s1 = .ok t ↔ ∃ i, regIndex s1 = .ok i ∧ t = { s with out := s.out ++ [(i, s.regs.get i)] } := by
  simp [outResult, bind_ok, eq_comm (b := t)]

theorem outResult_error {s : State} {s1 : Byte} {f : RunFault} :
    outResult s s1 = .error f ↔ 4 ≤ s1.toNat ∧ f = .invalidRegister := by
  simp [outResult, bind_error, regIndex_error]

/-! ### The engine's own division -/

theorem divide_ok {s t : State} {a b r : Word} :
    divide s a b = .ok (r, t) ↔ b ≠ 0#32 ∧ r = BitVec.ofNat 32 (a.toNat / b.toNat) ∧ t = s := by
  unfold divide
  split <;> simp [*, eq_comm (b := t), eq_comm (b := r)]

theorem divide_error {s : State} {a b : Word} {f : RunFault} : divide s a b = .error f ↔ b = 0#32 ∧ f = .divideByZero := by
  unfold divide
  split <;> simp [*, eq_comm (b := f)]

/-! ### Dispatch as equations -/

section Dispatch
variable (s : State) (d s1 s2 imm v a tgt : Byte)

theorem exec_add : exec (.add d s1 s2) s = conclude s (binaryResult s 0x00#8 (viaAlu aluAdd) d s1 s2) := rfl
theorem exec_sub : exec (.sub d s1 s2) s = conclude s (binaryResult s 0x01#8 (viaAlu aluSub) d s1 s2) := rfl
theorem exec_mul : exec (.mul d s1 s2) s =
    conclude s (binaryResult s 0x02#8 (direct fun x y => BitVec.ofNat 32 (x.toNat * y.toNat)) d s1 s2) := rfl
theorem exec_div : exec (.div d s1 s2) s = conclude s (binaryResult s 0x03#8 divide d s1 s2) := rfl
theorem exec_and : exec (.and d s1 s2) s = conclude s (binaryResult s 0x04#8 (direct fun x y => x &&& y) d s1 s2) := rfl
theorem exec_or : exec (.or d s1 s2) s = conclude s (binaryResult s 0x05#8 (direct fun x y => x ||| y) d s1 s2) := rfl
theorem exec_xor : exec (.xor d s1 s2) s = conclude s (binaryResult s 0x06#8 (direct fun x y => x ^^^ y) d s1 s2) := rfl
theorem exec_not : exec (.not d s1) s = conclude s (unaryResult s 0x07#8 (fun x => ~~~x) d s1) := rfl
theorem exec_shl : exec (.shl d s1 s2) s =
    conclude s (binaryResult s 0x08#8 (direct fun x y => shiftLeft x (shiftDistance s.params y)) d s1 s2) := rfl
theorem exec_shr : exec (.shr d s1 s2) s =
    conclude s (binaryResult s 0x09#8 (direct fun x y => shiftRight x (shiftDistance s.params y)) d s1 s2) := rfl
theorem exec_eq : exec (.eq d s1 s2) s = compareExec s 0x0A#8 aluEq d s1 s2 := rfl
theorem exec_neq : exec (.neq d s1 s2) s = compareExec s 0x0B#8 aluNeq d s1 s2 := rfl
theorem exec_gt : exec (.gt d s1 s2) s = compareExec s 0x0C#8 aluGt d s1 s2 := rfl
theorem exec_lt : exec (.lt d s1 s2) s = compareExec s 0x0D#8 aluLt d s1 s2 := rfl
theorem exec_ge : exec (.ge d s1 s2) s = compareExec s 0x0E#8 aluGe d s1 s2 := rfl
theorem exec_le : exec (.le d s1 s2) s = compareExec s 0x0F#8 aluLe d s1 s2 := rfl
theorem exec_load : exec (.load d imm) s = conclude s (loadResult s d imm) := rfl
theorem exec_store : exec (.store v a) s = conclude s (storeResult s v a) := rfl
theorem exec_jump : exec (.jump tgt) s = .next { s with pc := tgt.setWidth 32 } := rfl
theorem exec_jz : exec (.jz tgt) s = .next (if s.flags.z then { s with pc := tgt.setWidth 32 } else s) := by
  show conclude s (if s.flags.z then jumpTo s 0x13#8 tgt else .ok s) = _
  rw [jumpTo_eq s tgt rfl]
  cases s.flags.z <;> rfl
theorem exec_jnz : exec (.jnz tgt) s = .next (if s.flags.z then s else { s with pc := tgt.setWidth 32 }) := by
  show conclude s (if s.flags.z then .ok s else jumpTo s 0x14#8 tgt) = _
  rw [jumpTo_eq s tgt rfl]
  cases s.flags.z <;> rfl
theorem exec_call : exec (.call s1) s = conclude s (callResult s s1) := rfl
theorem exec_ret : exec .ret s = conclude s (retResult s) := rfl
theorem exec_push : exec (.push s1) s = conclude s (pushResult s s1) := rfl
theorem exec_pop : exec (.pop d) s = conclude s (popResult s d) := rfl
theorem exec_halt : exec .halt s = .next { s with halted := true } := rfl
theorem exec_out : exec (.out s1) s = conclude s (outResult s s1) := rfl

end Dispatch

/-- A comparison under `COMPARE_DISPATCH = Fault` (44_compare.md R180). -/
theorem compareExec_fault {s : State} {opcode : Byte} {f : State → Word → Word → Word × State} {d s1 s2 : Byte}
    (h : s.params.compareDispatch = .fault) : compareExec s opcode f d s1 s2 = .next (s.raise .invalidOpcode) := by
  simp [compareExec, h]

/-- A comparison under `COMPARE_DISPATCH = Execute` (44_compare.md R181). -/
theorem compareExec_execute {s : State} {opcode : Byte} {f : State → Word → Word → Word × State} {d s1 s2 : Byte}
    (h : s.params.compareDispatch = .execute) :
    compareExec s opcode f d s1 s2 = conclude s (binaryResult s opcode (viaAlu f) d s1 s2) := by
  simp [compareExec, h]

end Sys2Proof.Machine
end

