-- ==== Sys2Proof/Laws/Cycle.lean ====
section
/-! SUPPORT. What one step can do. -/

namespace Sys2Proof.Machine

section Advance
variable (pc0 : Word) (t : State)
@[simp] theorem advance_regs : (advance pc0 t).regs = t.regs := by unfold advance; split <;> rfl
@[simp] theorem advance_sp : (advance pc0 t).sp = t.sp := by unfold advance; split <;> rfl
@[simp] theorem advance_hp : (advance pc0 t).hp = t.hp := by unfold advance; split <;> rfl
@[simp] theorem advance_flags : (advance pc0 t).flags = t.flags := by unfold advance; split <;> rfl
@[simp] theorem advance_halted : (advance pc0 t).halted = t.halted := by unfold advance; split <;> rfl
@[simp] theorem advance_fault : (advance pc0 t).fault = t.fault := by unfold advance; split <;> rfl
@[simp] theorem advance_mem : (advance pc0 t).mem = t.mem := by unfold advance; split <;> rfl
@[simp] theorem advance_out : (advance pc0 t).out = t.out := by unfold advance; split <;> rfl
@[simp] theorem advance_params : (advance pc0 t).params = t.params := by unfold advance; split <;> rfl
end Advance

/-- A state whose `pc` moved keeps it (41_execution_cycle.md R146). -/
theorem advance_moved {pc0 : Word} {t : State} (h : t.pc ≠ pc0) : advance pc0 t = t := by simp [advance, h]

/-- A halted state is not advanced (41_execution_cycle.md R145). -/
theorem advance_of_halted {pc0 : Word} {t : State} (h : t.halted = true) : advance pc0 t = t := by simp [advance, h]

/-- A running state whose `pc` did not move is advanced by 4 (41_execution_cycle.md R146). -/
theorem advance_same {pc0 : Word} {t : State} (hh : t.halted = false) (h : t.pc = pc0) :
    advance pc0 t = { t with pc := pc0 + 4#32 } := by simp [advance, hh, h]

/-- A fetch reads the word at `pc`, or finds `pc` outside the code segment (41_execution_cycle.md R141, R142). -/
theorem fetch_eq (s : State) :
    fetch s = if s.pc.toNat < codeEnd then .ok (s.mem.readWord s.pc.toNat) else .error .outOfBounds := by
  by_cases h : s.pc.toNat < codeEnd
  · have hb : inBounds s.pc = true := by
      simp only [codeEnd] at h
      exact inBounds_iff.mpr (by simp only [memSize]; omega)
    rw [if_pos h, fetch, fetchOk, if_pos (decide_eq_true h)]
    exact memRead_ok.mpr ⟨hb, rfl⟩
  · rw [if_neg h, fetch, fetchOk, if_neg (by rwa [decide_eq_true_eq])]

/-- A halted engine has no step. -/
theorem step_of_halted {s : State} (h : s.halted = true) : step s = .fault .halted := by simp [step, cycle, h]

/-- A step of a running engine, as an equation. -/
theorem step_eq {s : State} (h : s.halted = false) :
    step s =
      if s.pc.toNat < codeEnd then
        match decodeWord (s.mem.readWord s.pc.toNat) with
        | .error _ => .next (s.raise .invalidOpcode)
        | .ok i => executeStage exec s i
      else .next (s.raise .outOfBounds) := by
  unfold step cycle
  rw [fetch_eq, h]
  by_cases hp : s.pc.toNat < codeEnd
  · simp only [hp, if_true, decodeStage, Bool.false_eq_true, if_false]
    cases decodeWord (s.mem.readWord s.pc.toNat) <;> rfl
  · simp only [hp, if_false, Bool.false_eq_true]

/-- All a step that answers a next state can have done. -/
theorem step_next {s t : State} (h : step s = .next t) :
    s.halted = false ∧
      ((codeEnd ≤ s.pc.toNat ∧ t = s.raise .outOfBounds) ∨
        (s.pc.toNat < codeEnd ∧
          ((∃ e, decodeWord (s.mem.readWord s.pc.toNat) = .error e ∧ t = s.raise .invalidOpcode) ∨
            ∃ i u, decodeWord (s.mem.readWord s.pc.toNat) = .ok i ∧ exec i s = .next u ∧ t = advance s.pc u))) := by
  unfold step cycle at h
  by_cases hh : s.halted = true
  · simp [hh] at h
  · refine ⟨by simpa using hh, ?_⟩
    rw [if_neg hh, fetch_eq] at h
    by_cases hpc : s.pc.toNat < codeEnd
    · refine .inr ⟨hpc, ?_⟩
      simp only [hpc, if_true, decodeStage] at h
      cases hd : decodeWord (s.mem.readWord s.pc.toNat) with
      | error e =>
        simp only [hd, Host.Outcome.next.injEq] at h
        exact .inl ⟨e, rfl, h.symm⟩
      | ok i =>
        simp only [hd, executeStage] at h
        cases he : exec i s with
        | next u =>
          simp only [he, Host.Outcome.next.injEq] at h
          exact .inr ⟨i, u, rfl, he, h.symm⟩
        | fault r => simp [he] at h
        | refused r => simp [he] at h
    · simp only [hpc, if_false, Host.Outcome.next.injEq] at h
      exact .inl ⟨Nat.not_lt.mp hpc, h.symm⟩

end Sys2Proof.Machine
end

