-- ==== Sys2Proof/Machine/Idioms.lean ====
section
/-! DEFINITION. The idioms of 30_encoding.md R106: sequences of real instructions. The spec has no pseudo-instruction: none
of these is a mnemonic of `mnemonicTable` (Machine/Assembler.lean) or a constructor of `Instr`. Laws/Idioms.lean says
what each does. -/

namespace Sys2Proof.Machine

/-- Clear a register: `LOAD Rd, 0` (30_encoding.md R106). -/
def clearRegister (d : Byte) : List Instr := [.load d 0#8]

/-- Copy a register, which LOAD cannot do: `PUSH Rs` then `POP Rd`, through one stack word (30_encoding.md R106). -/
def copyRegister (d s : Byte) : List Instr := [.push s, .pop d]

/-- The end of a subroutine that returns past its CALL: `POP Rk; LOAD Rm, 4; ADD Rk, Rk, Rm; PUSH Rk; RET`
(30_encoding.md R106). -/
def returnPastCall (k m : Byte) : List Instr := [.pop k, .load m 4#8, .add k k m, .push k, .ret]

end Sys2Proof.Machine
end

