-- ==== Sys2Proof/Laws/Idioms.lean ====
section
/-! SUPPORT. What the idioms of 30_encoding.md R106 do, and that no mnemonic is a pseudo-instruction. -/

namespace Sys2Proof.Machine

/-- An instruction that leaves the engine running is followed by the rest of its sequence. -/
theorem execAll_cons {i : Instr} {rest : List Instr} {s t : State} (h : exec i s = .next t) (hr : t.halted = false) :
    execAll (i :: rest) s = execAll rest t := by
  simp [execAll, h, hr]

/-- A sequence of one instruction. -/
theorem execAll_singleton {i : Instr} {s t : State} (h : exec i s = .next t) : execAll [i] s = .next t := by
  simp only [execAll, h]
  split <;> rfl

/-! ### The instructions of the idioms, where they complete -/

theorem exec_load_of_lt {s : State} {d : Byte} (imm : Byte) (hd : d.toNat < 4) :
    exec (.load d imm) s = .next (s.setReg ⟨d.toNat, hd⟩ (imm.setWidth 32)) := by
  rw [exec_load, loadResult_ok.mpr ⟨_, regIndex_of_lt hd, rfl⟩, conclude_ok]

theorem exec_push_of_lt {s : State} {r : Byte} (hr : r.toNat < 4) (hlo : 0x204 ≤ s.sp.toNat) (hhi : s.sp.toNat ≤ 0x400) :
    exec (.push r) s = .next
      { s with sp := s.sp - 4#32, mem := s.mem.writeWord (s.sp - 4#32).toNat (s.regs.get ⟨r.toNat, hr⟩) } := by
  have hb : inBounds (s.sp - 4#32) = true := inBounds_iff.mpr (by rw [sub_four_toNat (by omega), memSize]; omega)
  rw [exec_push, pushResult_ok.mpr ⟨_, regIndex_of_lt hr, pushOk_iff.mpr hlo, hb, rfl⟩, conclude_ok]

theorem exec_pop_of_lt {s : State} {d : Byte} (hd : d.toNat < 4) (hhi : s.sp.toNat ≤ 0x2FC) :
    exec (.pop d) s = .next
      { s with sp := s.sp + 4#32, regs := s.regs.set ⟨d.toNat, hd⟩ (s.mem.readWord s.sp.toNat) } := by
  have hb : inBounds s.sp = true := inBounds_iff.mpr (by rw [memSize]; omega)
  rw [exec_pop, popResult_ok.mpr ⟨_, regIndex_of_lt hd, popOk_iff.mpr (by rw [stackEnd]; omega), hb, rfl⟩, conclude_ok]

theorem exec_ret_of_le {s : State} (hhi : s.sp.toNat ≤ 0x2FC) :
    exec .ret s = .next { s with pc := s.mem.readWord s.sp.toNat, sp := s.sp + 4#32 } := by
  have hb : inBounds s.sp = true := inBounds_iff.mpr (by rw [memSize]; omega)
  rw [exec_ret, retResult_ok.mpr ⟨popOk_iff.mpr (by rw [stackEnd]; omega), hb, rfl⟩, conclude_ok]

theorem exec_add_of_lt {s : State} {d a b : Byte} (hd : d.toNat < 4) (ha : a.toNat < 4) (hb : b.toNat < 4) :
    exec (.add d a b) s = .next
      ((aluAdd s (s.regs.get ⟨a.toNat, ha⟩) (s.regs.get ⟨b.toNat, hb⟩)).2.setReg ⟨d.toNat, hd⟩
        (s.regs.get ⟨a.toNat, ha⟩ + s.regs.get ⟨b.toNat, hb⟩)) := by
  rw [exec_add, binaryResult_of_lt rfl rfl hd ha hb]
  rfl

/-! ### The idioms -/

/-- `LOAD Rd, 0` clears the register and changes nothing else. -/
theorem clearRegister_clears {s : State} {d : Byte} (hd : d.toNat < 4) :
    execAll (clearRegister d) s = .next (s.setReg ⟨d.toNat, hd⟩ 0#32) :=
  execAll_singleton (exec_load_of_lt 0#8 hd)

/-- `PUSH Rs; POP Rd` copies the register. It uses the stack word below `sp`, which keeps the copied value, and leaves
`sp` and every other element as they were. -/
theorem copyRegister_copies {s : State} {d r : Byte} (hd : d.toNat < 4) (hr : r.toNat < 4) (hs : s.halted = false)
    (hlo : 0x204 ≤ s.sp.toNat) (hhi : s.sp.toNat ≤ 0x300) :
    execAll (copyRegister d r) s = .next
      { s with
        regs := s.regs.set ⟨d.toNat, hd⟩ (s.regs.get ⟨r.toNat, hr⟩)
        mem := s.mem.writeWord (s.sp - 4#32).toNat (s.regs.get ⟨r.toNat, hr⟩) } := by
  rw [copyRegister, execAll_cons (exec_push_of_lt hr hlo (by omega)) hs]
  refine execAll_singleton ((exec_pop_of_lt hd ?_).trans ?_)
  · show (s.sp - 4#32).toNat ≤ 0x2FC
    rw [sub_four_toNat (by omega)]
    omega
  · simp only [readWord_writeWord_same, BitVec.sub_add_cancel]

/-- The end of a subroutine that returns past its CALL: with the saved word `c` on top of the stack it goes to `c + 4`, the
instruction after the CALL at `c`, and `sp` is as before the CALL. It uses the two registers and the flags. -/
theorem returnPastCall_returns {s : State} {k m : Byte} (hk : k.toNat < 4) (hm : m.toNat < 4) (hkm : k ≠ m)
    (hs : s.halted = false) (hlo : 0x200 ≤ s.sp.toNat) (hhi : s.sp.toNat ≤ 0x2FC) :
    ∃ t, execAll (returnPastCall k m) s = .next t ∧ t.pc = s.mem.readWord s.sp.toNat + 4#32 ∧ t.sp = s.sp + 4#32 ∧
      t.halted = false ∧ t.fault = s.fault ∧ t.out = s.out ∧
      t.mem = s.mem.writeWord s.sp.toNat (s.mem.readWord s.sp.toNat + 4#32) ∧
      ∀ j : Fin 4, j.val ≠ k.toNat → j.val ≠ m.toNat → t.regs.get j = s.regs.get j := by
  have hne : (⟨k.toNat, hk⟩ : Fin 4) ≠ ⟨m.toNat, hm⟩ := fun h => hkm (BitVec.eq_of_toNat_eq (Fin.mk.inj h))
  have hsp : (s.sp + 4#32).toNat = s.sp.toNat + 4 := by
    rw [BitVec.toNat_add]
    simp only [BitVec.toNat_ofNat]
    omega
  rw [returnPastCall, execAll_cons (exec_pop_of_lt hk hhi) hs, execAll_cons (exec_load_of_lt 4#8 hm) (by exact hs),
    execAll_cons (exec_add_of_lt hk hk hm) (by exact hs),
    execAll_cons (exec_push_of_lt hk (by simp [aluAdd, hsp]; omega) (by simp [aluAdd, hsp]; omega)) (by exact hs)]
  refine ⟨_, execAll_singleton (exec_ret_of_le ?_), ?_⟩
  · simp only [aluAdd, withFlags_eq, setReg_sp, setFlags_sp, BitVec.add_sub_cancel]
    exact hhi
  · simp only [aluAdd, withFlags_eq, setReg_sp, setFlags_sp, setReg_mem, setFlags_mem, setReg_regs, setFlags_regs,
      setReg_halted, setFlags_halted, setReg_fault, setFlags_fault, setReg_out, setFlags_out, BitVec.add_sub_cancel,
      readWord_writeWord_same, get_set_same, get_set_other _ _ hne]
    refine ⟨rfl, trivial, hs, trivial, trivial, rfl, fun j hjk hjm => ?_⟩
    have h1 : j ≠ ⟨k.toNat, hk⟩ := fun h => hjk (congrArg Fin.val h)
    have h2 : j ≠ ⟨m.toNat, hm⟩ := fun h => hjm (congrArg Fin.val h)
    rw [get_set_other _ _ h1, get_set_other _ _ h2, get_set_other _ _ h1]

/-! ### No pseudo-instructions -/

/-- The mnemonics are those of the 27 assigned opcodes, each once, in the order of the opcode map (30_encoding.md R84,
R106): no mnemonic is a pseudo-instruction. -/
theorem mnemonicTable_opcodes : mnemonicTable.map (fun row => row.2.1.toNat) = List.range 27 := by decide

/-- A register name as an operand gives only its number, whatever labels are defined (30_encoding.md R103, R106). -/
theorem operandValue_register {labels : LabelTable} {t : List Char} {n : Nat} (h : readRegister t = some n) :
    operandValue labels t = .ok (n : Int) := by
  simp [operandValue, h]

/-- So `JUMP R1` is a jump to byte address 1, whatever `x[1]` holds (30_encoding.md R106). -/
theorem jump_register_name (labels : LabelTable) (s : State) :
    assembleInstr labels [['J', 'U', 'M', 'P'], ['R', '1']] = .ok 0x12010000#32 ∧
      decodeWord 0x12010000#32 = .ok (.jump 1) ∧ exec (.jump 1) s = .next { s with pc := 1#32 } :=
  ⟨rfl, rfl, rfl⟩

end Sys2Proof.Machine
end

