-- ==== Sys2Proof/Laws/PerInstr.lean ====
section
/-! SUPPORT. Statements about every instruction, one lemma per constructor. -/

namespace Sys2Proof.Laws

/-- The opcode map reads back the fields the encoder writes, slot by slot (30_encoding.md R82, R84). -/
def FieldsRoundTrip.Statement (i : Instr) : Prop := instrOfFields i.fields = .ok i

theorem FieldsRoundTrip.add (a b c : Byte) : FieldsRoundTrip.Statement (.add a b c) := rfl

theorem FieldsRoundTrip.sub (a b c : Byte) : FieldsRoundTrip.Statement (.sub a b c) := rfl

theorem FieldsRoundTrip.mul (a b c : Byte) : FieldsRoundTrip.Statement (.mul a b c) := rfl

theorem FieldsRoundTrip.div (a b c : Byte) : FieldsRoundTrip.Statement (.div a b c) := rfl

theorem FieldsRoundTrip.and (a b c : Byte) : FieldsRoundTrip.Statement (.and a b c) := rfl

theorem FieldsRoundTrip.or (a b c : Byte) : FieldsRoundTrip.Statement (.or a b c) := rfl

theorem FieldsRoundTrip.xor (a b c : Byte) : FieldsRoundTrip.Statement (.xor a b c) := rfl

theorem FieldsRoundTrip.not (a b : Byte) : FieldsRoundTrip.Statement (.not a b) := rfl

theorem FieldsRoundTrip.shl (a b c : Byte) : FieldsRoundTrip.Statement (.shl a b c) := rfl

theorem FieldsRoundTrip.shr (a b c : Byte) : FieldsRoundTrip.Statement (.shr a b c) := rfl

theorem FieldsRoundTrip.eq (a b c : Byte) : FieldsRoundTrip.Statement (.eq a b c) := rfl

theorem FieldsRoundTrip.neq (a b c : Byte) : FieldsRoundTrip.Statement (.neq a b c) := rfl

theorem FieldsRoundTrip.gt (a b c : Byte) : FieldsRoundTrip.Statement (.gt a b c) := rfl

theorem FieldsRoundTrip.lt (a b c : Byte) : FieldsRoundTrip.Statement (.lt a b c) := rfl

theorem FieldsRoundTrip.ge (a b c : Byte) : FieldsRoundTrip.Statement (.ge a b c) := rfl

theorem FieldsRoundTrip.le (a b c : Byte) : FieldsRoundTrip.Statement (.le a b c) := rfl

theorem FieldsRoundTrip.load (a b : Byte) : FieldsRoundTrip.Statement (.load a b) := rfl

theorem FieldsRoundTrip.store (a b : Byte) : FieldsRoundTrip.Statement (.store a b) := rfl

theorem FieldsRoundTrip.jump (a : Byte) : FieldsRoundTrip.Statement (.jump a) := rfl

theorem FieldsRoundTrip.jz (a : Byte) : FieldsRoundTrip.Statement (.jz a) := rfl

theorem FieldsRoundTrip.jnz (a : Byte) : FieldsRoundTrip.Statement (.jnz a) := rfl

theorem FieldsRoundTrip.call (a : Byte) : FieldsRoundTrip.Statement (.call a) := rfl

theorem FieldsRoundTrip.ret : FieldsRoundTrip.Statement .ret := rfl

theorem FieldsRoundTrip.push (a : Byte) : FieldsRoundTrip.Statement (.push a) := rfl

theorem FieldsRoundTrip.pop (a : Byte) : FieldsRoundTrip.Statement (.pop a) := rfl

theorem FieldsRoundTrip.halt : FieldsRoundTrip.Statement .halt := rfl

theorem FieldsRoundTrip.out (a : Byte) : FieldsRoundTrip.Statement (.out a) := rfl

end Sys2Proof.Laws
end

