-- ==== Sys2Proof/Laws/Safety.lean ====
section
/-! SUPPORT. The byte-by-byte form of a stored word. -/

namespace Sys2Proof.Machine

/-- A word write, byte by byte, in the form the statements use (20_memory.md R52, R55). -/
theorem holdsAfterStore_writeWord (m : Memory) (a : Nat) (v : Word) : m.HoldsAfterStore a v (m.writeWord a v) := by
  intro k
  rw [readByte_writeWord]
  by_cases h : a ≤ k ∧ k < a + 4
  · rw [if_pos h]
    obtain rfl | rfl | rfl | rfl : k = a ∨ k = a + 1 ∨ k = a + 2 ∨ k = a + 3 := by omega
    all_goals simp [wordByte]
  · rw [if_neg h, if_neg (by omega), if_neg (by omega), if_neg (by omega), if_neg (by omega)]

end Sys2Proof.Machine
end

