-- ==== Sys2Proof/Machine/Run.lean ====
section
/-! DEFINITION. The host's `run` request (10_state.md R41, 41_execution_cycle.md R148), with a bound on the steps: the
spec bounds neither their number nor the time, and a run may never end (log entry 14). -/

namespace Sys2Proof.Machine

/-- At most `n` steps, ending at the first state with `halted = 1` (41_execution_cycle.md R148, R149). -/
def runFor : Nat → State → State
  | 0, s => s
  | n + 1, s =>
    if s.halted then s
    else
      match step s with
      | .next t => runFor n t
      | .fault _ => s
      | .refused _ => s

end Sys2Proof.Machine
end

