-- ==== Sys2Proof/Tests/Slice0.lean ====
section
/-! SUPPORT. Tests on fixed values. Expected values are those of 95_test_vectors.md (W1 to W8, V1 to V9) where a comment
or docstring names one, else worked out by hand from the rule named. -/

namespace Sys2Proof.Tests

open Sys2Proof.Machine

/-! ### Helpers -/

/-- The reset state with these registers (95_test_vectors.md, opening). -/
def machine (r0 r1 r2 r3 : Word) : State := { State.reset with regs := ⟨r0, r1, r2, r3⟩ }

/-- The same under `COMPARE_DISPATCH = Execute`, `SHIFT_AMOUNT = Saturate`, `MISALIGNED_POLICY = Fault`. -/
def otherMachine (r0 r1 r2 r3 : Word) : State :=
  { machine r0 r1 r2 r3 with params := { compareDispatch := .execute, shiftAmount := .saturate, misalignedPolicy := .fault } }

/-- The state an outcome answers, where it answers one. -/
def answered : Result → Option State
  | .next t => some t
  | .fault _ => none
  | .refused _ => none

/-- The state after one step with the word `w` placed at `pc`. -/
def ran (s : State) (w : Word) : Option State := answered (step (placeWord s w))

/-- The registers and flags after one step. -/
def regsFlags (s : State) (w : Word) : Option (RegFile × Flags) := (ran s w).map fun t => (t.regs, t.flags)

/-- `pc`, `sp` and the run status after one step. -/
def pcSpFault (s : State) (w : Word) : Option (Word × Word × Bool × Option RunFault) :=
  (ran s w).map fun t => (t.pc, t.sp, t.halted, t.fault)

/-- The word at an address after one step. -/
def wordAfter (s : State) (w : Word) (a : Nat) : Option Word := (ran s w).map fun t => t.mem.readWord a

/-! ### Well-formed terms, and ill-formed ones refused: one for each slot checked (30_encoding.md R84, R88) -/

theorem test_wellFormed_accepts_register_3 :
    [Instr.add 3 3 3, .not 3 3, .load 3 255, .store 3 3, .jump 255, .call 3, .ret, .push 3, .pop 3, .halt, .out 3].all
      Instr.wellFormed = true := by decide

theorem test_wellFormed_checks_three_slots :
    [Instr.add 4 0 0, .add 0 4 0, .add 0 0 4, .sub 4 0 0, .sub 0 4 0, .sub 0 0 4, .mul 4 0 0, .mul 0 4 0, .mul 0 0 4,
     .div 4 0 0, .div 0 4 0, .div 0 0 4, .and 4 0 0, .and 0 4 0, .and 0 0 4, .or 4 0 0, .or 0 4 0, .or 0 0 4, .xor 4 0 0,
     .xor 0 4 0, .xor 0 0 4, .shl 4 0 0, .shl 0 4 0, .shl 0 0 4, .shr 4 0 0, .shr 0 4 0, .shr 0 0 4].all
      (fun i => !i.wellFormed) = true := by decide

theorem test_wellFormed_checks_comparisons :
    [Instr.eq 4 0 0, .eq 0 4 0, .eq 0 0 4, .neq 4 0 0, .neq 0 4 0, .neq 0 0 4, .gt 4 0 0, .gt 0 4 0, .gt 0 0 4, .lt 4 0 0,
     .lt 0 4 0, .lt 0 0 4, .ge 4 0 0, .ge 0 4 0, .ge 0 0 4, .le 4 0 0, .le 0 4 0, .le 0 0 4].all
      (fun i => !i.wellFormed) = true := by decide

theorem test_wellFormed_checks_other_slots :
    [Instr.not 4 0, .not 0 4, .load 4 0, .store 4 0, .store 0 4, .call 4, .push 4, .pop 4, .out 4].all
      (fun i => !i.wellFormed) = true := by decide

/-! ### Decoding: for every constructor a word written out from the encoding its rule gives -/

theorem test_decode_arithmetic :
    decodeTableWord 32 0b00000000000000110000000100000010 = some (.add 3 1 2) ∧
    decodeTableWord 32 0b00000001000000110000000100000010 = some (.sub 3 1 2) ∧
    decodeTableWord 32 0b00000010000000110000000100000010 = some (.mul 3 1 2) ∧
    decodeTableWord 32 0b00000011000000110000000100000010 = some (.div 3 1 2) := by decide

theorem test_decode_logic :
    decodeTableWord 32 0b00000100000000110000000100000010 = some (.and 3 1 2) ∧
    decodeTableWord 32 0b00000101000000110000000100000010 = some (.or 3 1 2) ∧
    decodeTableWord 32 0b00000110000000110000000100000010 = some (.xor 3 1 2) ∧
    decodeTableWord 32 0b00000111000000110000000100000010 = some (.not 3 1) := by decide

theorem test_decode_shifts :
    decodeTableWord 32 0b00001000000000110000000100000010 = some (.shl 3 1 2) ∧
    decodeTableWord 32 0b00001001000000110000000100000010 = some (.shr 3 1 2) := by decide

theorem test_decode_comparisons :
    decodeTableWord 32 0b00001010000000110000000100000010 = some (.eq 3 1 2) ∧
    decodeTableWord 32 0b00001011000000110000000100000010 = some (.neq 3 1 2) ∧
    decodeTableWord 32 0b00001100000000110000000100000010 = some (.gt 3 1 2) ∧
    decodeTableWord 32 0b00001101000000110000000100000010 = some (.lt 3 1 2) ∧
    decodeTableWord 32 0b00001110000000110000000100000010 = some (.ge 3 1 2) ∧
    decodeTableWord 32 0b00001111000000110000000100000010 = some (.le 3 1 2) := by decide

theorem test_decode_transfer :
    decodeTableWord 32 0b00010000000000101111111100000010 = some (.load 2 255) ∧
    decodeTableWord 32 0b00010001000000110000000100000010 = some (.store 3 1) := by decide

theorem test_decode_control :
    decodeTableWord 32 0b00010010010000010000000100000010 = some (.jump 65) ∧
    decodeTableWord 32 0b00010011000010000000000100000010 = some (.jz 8) ∧
    decodeTableWord 32 0b00010100000010000000000100000010 = some (.jnz 8) ∧
    decodeTableWord 32 0b00010101000000110000000100000010 = some (.call 3) ∧
    decodeTableWord 32 0b00010110000000110000000100000010 = some .ret := by decide

theorem test_decode_stack_and_system :
    decodeTableWord 32 0b00010111000000110000000100000010 = some (.push 3) ∧
    decodeTableWord 32 0b00011000000000110000000100000010 = some (.pop 3) ∧
    decodeTableWord 32 0b00011001111111111111111111111111 = some .halt ∧
    decodeTableWord 32 0b00011010000000100000000100000010 = some (.out 2) := by decide

/-- V8: 0x1B000000, 0xFF000000 and 0xDEADBEEF are no instruction. -/
theorem test_decode_unassigned :
    decodeTableWord 32 0x1B000000 = none ∧ decodeTableWord 32 0xFF000000 = none ∧ decodeTableWord 32 0xDEADBEEF = none := by
  decide

/-- 30_encoding.md R83: fewer than four bytes are no instruction. -/
theorem test_decode_truncated : decodeBytes [0x00#8, 0x00#8, 0x00#8] = .error .truncated := by rfl

/-- W4: the fields of three words. -/
theorem test_fields :
    wordFields 0x00020001#32 = ⟨0x00#8, 2#8, 0#8, 1#8⟩ ∧ wordFields 0x1AFFFFFF#32 = ⟨0x1A#8, 255#8, 255#8, 255#8⟩ ∧
      packFields ⟨0xFF#8, 0#8, 0#8, 0#8⟩ = 0xFF000000#32 := by decide

/-- V5: the bytes of `STORE R0, R1` and of 0x11223344 in memory order. -/
theorem test_encode_bytes :
    encodeBytes (.store 0 1) = [0x00#8, 0x01#8, 0x00#8, 0x11#8] ∧
      wordBytes 0x11223344#32 = [0x44#8, 0x33#8, 0x22#8, 0x11#8] := by decide

/-! ### One step of each instruction -/

/-- V1 and W1. -/
theorem test_add_overflow :
    regsFlags (machine 0 0x7FFFFFFF 1 0) 0x00000102#32 = some (⟨0x80000000, 0x7FFFFFFF, 1, 0⟩, ⟨false, true, true⟩) := by
  decide

/-- V1: the source is read before the write. -/
theorem test_add_same_register :
    regsFlags (machine 3 0 0 0) 0x00000000#32 = some (⟨6, 0, 0, 0⟩, ⟨false, false, false⟩) := by decide

/-- V1: INT_MIN - 1. -/
theorem test_sub_overflow :
    regsFlags (machine 0 0x80000000 1 0) 0x01000102#32 = some (⟨0x7FFFFFFF, 0x80000000, 1, 0⟩, ⟨false, false, true⟩) := by
  decide

/-- V1: 0 - 1. -/
theorem test_sub_borrow :
    regsFlags (machine 0 0 1 0) 0x01000102#32 = some (⟨0xFFFFFFFF, 0, 1, 0⟩, ⟨false, true, false⟩) := by decide

/-- V2: the high half is lost and `Z` stays 0. -/
theorem test_mul_loses_high_half :
    regsFlags (machine 9 0x10000 0x10000 0) 0x02000102#32 = some (⟨0, 0x10000, 0x10000, 0⟩, ⟨false, false, false⟩) := by
  decide

/-- V2: unsigned, not -5. -/
theorem test_div_unsigned :
    regsFlags (machine 0 0xFFFFFFF6 2 0) 0x03000102#32 = some (⟨0x7FFFFFFB, 0xFFFFFFF6, 2, 0⟩, ⟨false, false, false⟩) := by
  decide

/-- V2: the destination check precedes the divisor check; and a zero divisor. -/
theorem test_div_faults :
    pcSpFault (machine 1 1 0 0) 0x03050002#32 = some (0, 0x300, true, some .invalidRegister) ∧
    pcSpFault (machine 9 5 0 0) 0x03000102#32 = some (0, 0x300, true, some .divideByZero) := by decide

/-- V3. -/
theorem test_and : regsFlags (machine 0 0xFF0F 0xFF 0) 0x04000102#32 = some (⟨0xF, 0xFF0F, 0xFF, 0⟩, ⟨false, false, false⟩) := by
  decide

/-- V3. -/
theorem test_or : regsFlags (machine 0 0xF0 0x0F 0) 0x05000102#32 = some (⟨0xFF, 0xF0, 0x0F, 0⟩, ⟨false, false, false⟩) := by
  decide

/-- V3: `Z` stays 0. -/
theorem test_xor_self : regsFlags (machine 0x1234 0 0 0) 0x06000000#32 = some (⟨0, 0, 0, 0⟩, ⟨false, false, false⟩) := by
  decide

/-- V3: op2 is not checked. -/
theorem test_not_ignores_op2 :
    regsFlags (machine 0 0 0 0) 0x07000109#32 = some (⟨0xFFFFFFFF, 0, 0, 0⟩, ⟨false, false, false⟩) := by decide

/-- V3: a distance of 33 under `Mask5` and under `Saturate`. -/
theorem test_shl_distance :
    regsFlags (machine 0 1 33 0) 0x08000102#32 = some (⟨2, 1, 33, 0⟩, ⟨false, false, false⟩) ∧
    regsFlags (otherMachine 0 1 33 0) 0x08000102#32 = some (⟨0, 1, 33, 0⟩, ⟨false, false, false⟩) := by decide

/-- V3: logical; and a distance of 32 under `Mask5`. -/
theorem test_shr_logical :
    regsFlags (machine 0 0x80000000 31 0) 0x09000102#32 = some (⟨1, 0x80000000, 31, 0⟩, ⟨false, false, false⟩) ∧
    regsFlags (machine 0 0x80000000 32 0) 0x09000102#32 = some (⟨0x80000000, 0x80000000, 32, 0⟩, ⟨false, false, false⟩) := by
  decide

/-- V4, second row: x[1] = -1, x[2] = 1 under `Execute`. -/
theorem test_comparisons_execute :
    ([0x0A000102#32, 0x0B000102#32, 0x0C000102#32, 0x0D000102#32, 0x0E000102#32, 0x0F000102#32].map fun w =>
      (ran (otherMachine 9 0xFFFFFFFF 1 0) w).map fun t => (t.regs.r0, t.flags.z)) =
    [some (0, true), some (1, false), some (0, true), some (1, false), some (0, true), some (1, false)] := by decide

/-- V4: 0x0F090909 under the default: bad register bytes are never examined. -/
theorem test_comparison_default_fault :
    pcSpFault (machine 0 0 0 0) 0x0F090909#32 = some (0, 0x300, true, some .invalidOpcode) := by decide

/-- V5: a literal, not `x[1]`. -/
theorem test_load_literal :
    regsFlags (machine 0 0x12345678 0 0) 0x10000100#32 = some (⟨1, 0x12345678, 0, 0⟩, ⟨false, false, false⟩) := by decide

/-- V5: the unaligned store under `Access`, and under `Fault`. -/
theorem test_store_unaligned :
    wordAfter (machine 0xAABBCCDD 0x101 0 0) 0x11000100#32 0x100 = some 0xBBCCDD00 ∧
    pcSpFault (otherMachine 0xAABBCCDD 0x101 0 0) 0x11000100#32 = some (0, 0x300, true, some .outOfBounds) := by decide

/-- V5: the highest word, and one byte above it. -/
theorem test_store_bounds :
    wordAfter (machine 0xAABBCCDD 0x3FC 0 0) 0x11000100#32 0x3FC = some 0xAABBCCDD ∧
    pcSpFault (machine 0xAABBCCDD 0x3FD 0 0) 0x11000100#32 = some (0, 0x300, true, some .outOfBounds) := by decide

/-- V6: to 65, and to itself. -/
theorem test_jump :
    pcSpFault (machine 0 0 0 0) 0x12410000#32 = some (0x41, 0x300, false, none) ∧
    pcSpFault (machine 0 0 0 0) 0x12000000#32 = some (4, 0x300, false, none) := by decide

/-- V6: `JZ` not taken with `Z = 0`; taken from 12 to 4 with `Z = 1`. -/
theorem test_jz :
    pcSpFault (machine 0 0 0 0) 0x13080000#32 = some (4, 0x300, false, none) ∧
    pcSpFault { machine 0 0 0 0 with pc := 12, flags := ⟨true, false, false⟩ } 0x13040000#32 = some (4, 0x300, false, none) := by
  decide

/-- V6: `JNZ` taken after reset; not taken at 12 with `Z = 1`. -/
theorem test_jnz :
    pcSpFault (machine 0 0 0 0) 0x14080000#32 = some (8, 0x300, false, none) ∧
    pcSpFault { machine 0 0 0 0 with pc := 12, flags := ⟨true, false, false⟩ } 0x14080000#32 = some (16, 0x300, false, none) := by
  decide

/-- V7: the CALL's own address is pushed, not the next one. -/
theorem test_call :
    pcSpFault { machine 0 0 0 16 with pc := 4 } 0x15030000#32 = some (16, 0x2FC, false, none) ∧
    wordAfter { machine 0 0 0 16 with pc := 4 } 0x15030000#32 0x2FC = some 4 := by decide

/-- V7: RET to 8, and from an empty stack. -/
theorem test_ret :
    pcSpFault { machine 0 0 0 0 with pc := 36, sp := 0x2FC, mem := ⟨[(0x2FC, 8)]⟩ } 0x16000000#32 =
      some (8, 0x300, false, none) ∧
    pcSpFault (machine 0 0 0 0) 0x16000000#32 = some (0, 0x300, true, some .outOfBounds) := by decide

/-- V7: a push, and one onto a full stack. -/
theorem test_push :
    wordAfter (machine 7 0 0 0) 0x17000000#32 0x2FC = some 7 ∧
    pcSpFault { machine 7 0 0 0 with sp := 0x200 } 0x17000000#32 = some (0, 0x200, true, some .outOfBounds) := by decide

/-- V7: a pop leaves the word; the destination is checked before the stack. -/
theorem test_pop :
    (ran { machine 0 0 0 0 with sp := 0x2FC, mem := ⟨[(0x2FC, 7)]⟩ } 0x18010000#32).map
      (fun t => (t.regs.r1, t.sp, t.mem.readWord 0x2FC)) = some (7, 0x300, 7) ∧
    pcSpFault (machine 0 0 0 0) 0x18040000#32 = some (0, 0x300, true, some .invalidRegister) := by decide

/-- V8: HALT with junk in its ignored slots keeps `pc`. -/
theorem test_halt : pcSpFault { machine 0 0 0 0 with pc := 0x10 } 0x19FFFFFF#32 = some (0x10, 0x300, true, none) := by decide

/-- V8. -/
theorem test_out : (ran (machine 0 0 15 0) 0x1A020000#32).map (fun t => (t.out, t.pc)) = some ([(2, 15)], 4) := by decide

/-- V8: 0x1B000000, and a fetch at 0x100. -/
theorem test_invalid_opcode_and_fetch :
    pcSpFault (machine 0 0 0 0) 0x1B000000#32 = some (0, 0x300, true, some .invalidOpcode) ∧
    pcSpFault { machine 0 0 0 0 with pc := 0x100 } 0x19000000#32 = some (0x100, 0x300, true, some .outOfBounds) := by decide

/-- V8: the fetch at 0xFE takes two bytes from the data segment. -/
theorem test_fetch_across_the_end :
    pcSpFault { machine 0 0 0 0 with pc := 0xFE, mem := ⟨[(0xFF, 0x19)]⟩ } 0x00001900#32 =
      some (0xFE, 0x300, true, some .invalidRegister) := by decide

/-- The ALU-level rows of V3. -/
theorem test_alu_values :
    (aluShr State.reset 0x80000000#32 4#32).1 = 0xF8000000#32 ∧ (aluDiv State.reset 0xFFFFFFF9#32 2#32).1 = 0xFFFFFFFD#32 ∧
    (aluDiv State.reset 0x80000000#32 0xFFFFFFFF#32).1 = 0x80000000#32 ∧
    (aluMul State.reset 0x10000#32 0x10000#32).2.flags = ⟨true, false, false⟩ ∧
    (aluNot State.reset 0xFFFFFFFF#32).2.flags = ⟨true, false, false⟩ := by decide

/-- The resolver's Indexed mode (30_encoding.md R91): op 0x12 is register 1 with offset 2. -/
theorem test_indexed : (match resolve { machine 0 0x100 0 0 with mem := ⟨[(0x102, 5)]⟩ } 0x12#8 .indexed with
    | .ok v => v.toNat
    | .error _ => 0) = 5 := by decide

/-- V9: six bytes loaded, the word at 4. -/
theorem test_load_code :
    (match loadCode [0x00#8, 0x05#8, 0x00#8, 0x10#8, 0xFF#8, 0xFF#8] State.reset with
      | .ok s => (s.mem.readWord 0, s.mem.readWord 4)
      | .error _ => (0, 0)) = (0x10000500, 0x0000FFFF) := by decide

/-! ### The assembler -/

/-- W3: the forward reference. -/
theorem test_assemble_forward_reference :
    (match assemble "JUMP Target ; go\n HALT\nTarget:\nHALT".toList with
      | .ok ws => ws
      | .error _ => []) = [0x12080000#32, 0x19000000#32, 0x19000000#32] := by decide

/-- W8: 8-bit operand masking. -/
theorem test_assemble_masks_operands :
    (match assemble "LOAD R0, 256\nLOAD R0,300\nLOAD R0, -1".toList with
      | .ok ws => ws
      | .error _ => []) = [0x10000000#32, 0x10002C00#32, 0x1000FF00#32] := by decide

/-- The two errors the spec names (30_encoding.md R102, R103). -/
theorem test_assemble_errors :
    (match assemble "JUMP Nowhere".toList with
      | .ok _ => none
      | .error e => some e) = some .unresolvedLabel ∧
    (match assemble "MOV R0, R1".toList with
      | .ok _ => none
      | .error e => some e) = some .unknownMnemonic := by decide

/-! ### The idioms (30_encoding.md R106) -/

/-- R106: the register name gives only its number; the idioms are written in real mnemonics. -/
theorem test_assemble_idioms :
    (match assemble "JUMP R1\nLOAD R2, 0\nPUSH R0\nPOP R3".toList with
      | .ok ws => ws
      | .error _ => []) = 0x12010000#32 :: (clearRegister 2 ++ copyRegister 3 0).map encode := by decide

/-- P3, first register: 7 copied from `x[0]` to `x[3]`. -/
theorem test_copy_register :
    (answered (execAll (copyRegister 3 0) (machine 7 0 0 0))).map (fun t => (t.regs, t.sp, t.mem.readWord 0x2FC)) =
      some (⟨7, 0, 0, 7⟩, 0x300, 7) := by decide

/-- P4: the subroutine called from 4 returns to 8; x = [_, 8, 4, 16], and the fixed-up word 8 stays at 0x2FC. -/
theorem test_return_past_call :
    (answered (execAll (returnPastCall 1 2) { machine 42 0 0 16 with sp := 0x2FC, mem := ⟨[(0x2FC, 4)]⟩ })).map
      (fun t => (t.pc, t.sp, t.regs, t.mem.readWord 0x2FC)) = some (8, 0x300, ⟨42, 8, 4, 16⟩, 8) := by decide

/-! ### Witnesses: states and operands that meet the hypotheses of each statement, clause by clause -/

/-- A word at `pc`, in a machine with these registers. -/
def at0 (w : Word) (r0 r1 r2 r3 : Word) : State := placeWord (machine r0 r1 r2 r3) w

/-- The machine with its stack pointer at `sp`. -/
def withSp (sp : Word) (s : State) : State := { s with sp := sp }

theorem reset_inv : State.reset.Inv := by constructor <;> decide

/-- Two different words that agree in the bits `NOT` uses; the highest assigned opcode and the lowest unassigned one. -/
theorem witness_DecodingLooksOnlyAtUsedBits :
    decodeWord 0x07000109#32 = .ok (.not 0 1) ∧
    0x07000109#32 &&& usedMask (wordFields 0x07000109#32).opcode = 0x07000100#32 &&& usedMask (wordFields 0x07000109#32).opcode ∧
    decodeWord 0x1AFFFFFF#32 = .ok (.out 255) ∧ decodeWord 0x1B000000#32 = .error (.unassignedOpcode 0x1B) :=
  ⟨rfl, by decide, rfl, rfl⟩

/-- At the last `pc` a fetch accepts, an ADD that is advanced; and a JUMP and a HALT that are not. -/
theorem witness_StepRunsTheDecodedInstr :
    (let s := placeWord { machine 0 1 2 0 with pc := 0xFF } 0x00000102#32
     s.halted = false ∧ s.pc.toNat < 0x100 ∧
       decodeBytes [s.mem.readByte s.pc.toNat, s.mem.readByte (s.pc.toNat + 1), s.mem.readByte (s.pc.toNat + 2),
         s.mem.readByte (s.pc.toNat + 3)] = .ok (.add 0 1 2, []) ∧
       ∃ t, exec (.add 0 1 2) s = .next t ∧ t.halted = false ∧ t.pc = s.pc) ∧
    (let s := at0 0x12410000#32 0 0 0 0
     decodeBytes [s.mem.readByte s.pc.toNat, s.mem.readByte (s.pc.toNat + 1), s.mem.readByte (s.pc.toNat + 2),
         s.mem.readByte (s.pc.toNat + 3)] = .ok (.jump 65, []) ∧
       ∃ t, exec (.jump 65) s = .next t ∧ t.halted = false ∧ t.pc ≠ s.pc) ∧
    (let s := at0 0x19000000#32 0 0 0 0
     decodeBytes [s.mem.readByte s.pc.toNat, s.mem.readByte (s.pc.toNat + 1), s.mem.readByte (s.pc.toNat + 2),
         s.mem.readByte (s.pc.toNat + 3)] = .ok (.halt, []) ∧
       ∃ t, exec .halt s = .next t ∧ t.halted = true ∧ t.pc = s.pc) :=
  ⟨⟨rfl, by decide, rfl, _, rfl, rfl, rfl⟩, ⟨rfl, _, rfl, rfl, by decide⟩, ⟨rfl, _, rfl, rfl, rfl⟩⟩

theorem witness_StepExistsExactlyWhenRunning :
    ({ State.reset with halted := true } : State).halted = true ∧ State.reset.halted = false := by decide

/-- The two sides of the fetch boundary. -/
theorem witness_FetchChecksOnlyTheCodeSegment :
    (let s : State := { machine 0 0 0 0 with pc := 0x100 }; s.halted = false ∧ 0x100 ≤ s.pc.toNat) ∧
    (let s : State := { machine 0 0 0 0 with pc := 0xFF }; s.pc.toNat < 0x100) := by decide

/-- The lowest unassigned opcode, and the first and last comparison under the default. -/
theorem witness_UndispatchableOpcodeRaisesInvalidOpcode :
    (let s := at0 0x1B000000#32 0 0 0 0
     s.halted = false ∧ s.pc.toNat < 0x100 ∧ 0x1B ≤ (s.mem.readByte (s.pc.toNat + 3)).toNat) ∧
    (let s := at0 0x0A000102#32 0 0 0 0
     0x0A ≤ (s.mem.readByte (s.pc.toNat + 3)).toNat ∧ (s.mem.readByte (s.pc.toNat + 3)).toNat ≤ 0x0F ∧
       s.params.compareDispatch = .fault) ∧
    (let s := at0 0x0FFFFFFF#32 0 0 0 0
     0x0A ≤ (s.mem.readByte (s.pc.toNat + 3)).toNat ∧ (s.mem.readByte (s.pc.toNat + 3)).toNat ≤ 0x0F) := by decide

theorem witness_AdvanceComparesPcValues :
    (State.reset.halted = false ∧ State.reset.pc = 0#32) ∧ (State.reset.halted = false ∧ State.reset.pc ≠ 4#32) ∧
      ({ State.reset with halted := true } : State).halted = true := by decide

/-- A JUMP, a JZ and a JNZ to their own address 8, a CALL at both ends of its stack range, a RET at the top of its own. -/
theorem witness_TransferToOwnAddressFallsThrough :
    (let s := placeWord { machine 0 0 0 0 with pc := 8 } 0x12080000#32
     s.halted = false ∧ s.pc.toNat < 0x100 ∧ decodeWord (s.mem.readWord s.pc.toNat) = .ok (.jump 8) ∧
       (8#8).toNat = s.pc.toNat) ∧
    (let s := placeWord { machine 0 0 0 0 with pc := 8, flags := ⟨true, false, false⟩ } 0x13080000#32
     decodeWord (s.mem.readWord s.pc.toNat) = .ok (.jz 8) ∧ s.flags.z = true) ∧
    (let s := placeWord { machine 0 0 0 0 with pc := 8 } 0x14080000#32
     decodeWord (s.mem.readWord s.pc.toNat) = .ok (.jnz 8) ∧ s.flags.z = false) ∧
    (let s := withSp 0x204 (at0 0x15000000#32 0 0 0 0)
     decodeWord (s.mem.readWord s.pc.toNat) = .ok (.call 0) ∧ s.regs.get 0 = s.pc ∧ 0x204 ≤ s.sp.toNat ∧ s.sp.toNat ≤ 0x400) ∧
    (let s := withSp 0x400 (at0 0x15000000#32 0 0 0 0)
     decodeWord (s.mem.readWord s.pc.toNat) = .ok (.call 0) ∧ s.regs.get 0 = s.pc ∧ 0x204 ≤ s.sp.toNat ∧ s.sp.toNat ≤ 0x400) ∧
    (let s := withSp 0x2FC (at0 0x16000000#32 0 0 0 0)
     decodeWord (s.mem.readWord s.pc.toNat) = .ok .ret ∧ s.sp.toNat ≤ 0x2FC ∧ s.mem.readWord s.sp.toNat = s.pc) :=
  ⟨⟨rfl, by decide, rfl, by decide⟩, ⟨rfl, rfl⟩, ⟨rfl, rfl⟩, ⟨rfl, rfl, by decide, by decide⟩,
    ⟨rfl, rfl, by decide, by decide⟩, ⟨rfl, by decide, rfl⟩⟩

/-- A step that faults and one that does not, and the same of an instruction. -/
theorem witness_FaultsArePrecise :
    (∃ t, step (at0 0x1B000000#32 0 0 0 0) = .next t ∧ t.fault = some .invalidOpcode) ∧
    (∃ t, step (at0 0x00000102#32 0 1 2 0) = .next t ∧ t.fault = none ∧ t.regs.r0 = 3#32) ∧
    (∃ t, exec (.div 0 1 2) (machine 0 5 0 0) = .next t ∧ t.fault = some .divideByZero) ∧
    (∃ t, exec (.div 0 1 2) (machine 0 5 2 0) = .next t ∧ t.fault = none ∧ t.regs.r0 = 2#32) :=
  ⟨⟨_, rfl, rfl⟩, ⟨_, rfl, rfl, rfl⟩, ⟨_, rfl, rfl⟩, ⟨_, rfl, rfl, rfl⟩⟩

/-- Register operands 3 and 4, and a comparison under `Execute`. -/
theorem witness_InvalidRegisterExactlyWhenIllFormed :
    ((Instr.add 3 3 3).wellFormed = true ∧ State.reset.fault ≠ some .invalidRegister ∧
      ∃ t, exec (.add 3 3 3) State.reset = .next t ∧ t.fault = none) ∧
    ((Instr.add 0 0 4).wellFormed = false ∧ isComparison (.add 0 0 4) = false) ∧
    ((Instr.eq 4 0 0).wellFormed = false ∧ isComparison (.eq 4 0 0) = true ∧
      (otherMachine 0 0 0 0).params.compareDispatch = .execute) :=
  ⟨⟨by decide, by decide, _, rfl, rfl⟩, by decide, by decide⟩

theorem witness_StepKeepsTheMachineInvariant :
    (at0 0x17000000#32 7 0 0 0).Inv ∧ ∃ t, step (at0 0x17000000#32 7 0 0 0) = .next t ∧ t.sp = 0x2FC#32 :=
  ⟨by constructor <;> decide, _, rfl, rfl⟩

theorem witness_ResetAndLoadMeetTheMachineInvariant :
    State.reset.Inv ∧ ∃ t, loadCode [0x19#8] State.reset = .ok t ∧ t.mem.readByte 0 = 0x19#8 :=
  ⟨reset_inv, _, rfl, by decide⟩

/-- A program of one PUSH, loaded and run for one step. -/
theorem witness_EveryLoadedRunKeepsTheStackRange :
    ∃ s t, loadCode [0x00#8, 0x00#8, 0x00#8, 0x17#8] (State.resetWith Params.default []) = .ok s ∧ Reaches s t ∧
      t.sp = 0x2FC#32 :=
  ⟨_, _, rfl, .step (t := { State.reset with pc := 4#32, sp := 0x2FC#32, mem := ⟨[(3, 0x17#8)]⟩ }) rfl (.refl _), rfl⟩

/-- Two states that differ in `N`, `O`, `hp`, `fault` and the trace; the step emits. -/
theorem witness_UnreadStateNeverSteersTheEngine :
    (at0 0x1A020000#32 0 0 15 0).steering =
      ({ at0 0x1A020000#32 0 0 15 0 with
        flags := ⟨false, true, true⟩, hp := 0#32, fault := some .divideByZero, out := [(0, 1#32)] } : State).steering ∧
    ∃ t, step (at0 0x1A020000#32 0 0 15 0) = .next t ∧ t.out = [(2, 15#32)] :=
  ⟨rfl, _, rfl, rfl⟩

theorem witness_OnlyHaltStopsWithoutAFault :
    (at0 0x19000000#32 0 0 0 0).fault = none ∧ ∃ t, step (at0 0x19000000#32 0 0 0 0) = .next t ∧ t.endedNormally :=
  ⟨rfl, _, rfl, rfl, rfl⟩

/-- An ADD, a SUB and an EQ that change a flag. -/
theorem witness_OnlyAddSubAndComparisonsWriteFlags :
    (∃ t, exec (.add 0 0 0) State.reset = .next t ∧ t.flags ≠ State.reset.flags) ∧
    (∃ t, exec (.sub 0 0 0) State.reset = .next t ∧ t.flags ≠ State.reset.flags) ∧
    (∃ t, exec (.eq 0 1 2) (otherMachine 0 1 2 0) = .next t ∧ t.flags ≠ (otherMachine 0 1 2 0).flags) :=
  ⟨⟨_, rfl, by decide⟩, ⟨_, rfl, by decide⟩, ⟨_, rfl, by decide⟩⟩

/-- A push, a pop and an instruction that leaves `sp`. -/
theorem witness_OnlyStackInstrsMoveSpByFour :
    (∃ t, exec (.call 3) State.reset = .next t ∧ t.sp = State.reset.sp - 4#32) ∧
    (∃ t, exec (.pop 3) (withSp 0x2FC State.reset) = .next t ∧ t.sp = 0x300#32) ∧
    (∃ t, exec (.out 3) State.reset = .next t ∧ t.sp = State.reset.sp) :=
  ⟨⟨_, rfl, by decide⟩, ⟨_, rfl, by decide⟩, ⟨_, rfl, rfl⟩⟩

/-- An instruction with a destination, at another register; and one without. -/
theorem witness_OnlyTheDestinationRegisterIsWritten :
    (∃ t, exec (.load 3 9) State.reset = .next t ∧ t.regs.get 3 = 9#32 ∧
      ∀ d, destination (.load 3 9) = some d → d.toNat ≠ (2 : Fin 4).val) ∧
    (∃ t, exec (.push 3) State.reset = .next t ∧ ∀ d, destination (.push 3) = some d → d.toNat ≠ (0 : Fin 4).val) :=
  ⟨⟨_, rfl, rfl, by simp [destination]⟩, ⟨_, rfl, by simp [destination]⟩⟩

/-- The bytes just below and just above a stored word. -/
theorem witness_OnlyTheStoredWordChangesMemory :
    (∃ t, exec (.store 0 1) (machine 0xFFFFFFFF 0x100 0 0) = .next t ∧ t.mem.readByte 0x103 = 0xFF#8 ∧
      (∀ a, storeAddress (machine 0xFFFFFFFF 0x100 0 0) (.store 0 1) = some a → 0xFF < a.toNat ∨ a.toNat + 4 ≤ 0xFF) ∧
      ∀ a, storeAddress (machine 0xFFFFFFFF 0x100 0 0) (.store 0 1) = some a → 0x104 < a.toNat ∨ a.toNat + 4 ≤ 0x104) ∧
    (∃ t, exec (.load 0 1) State.reset = .next t ∧ storeAddress State.reset (.load 0 1) = none) := by
  have h : storeAddress (machine 0xFFFFFFFF 0x100 0 0) (.store 0 1) = some 0x100#32 := rfl
  refine ⟨⟨_, rfl, by decide, ?_, ?_⟩, _, rfl, rfl⟩ <;> rw [h] <;> rintro a ⟨⟩ <;> decide

/-- A PUSH of the last word the segment holds, and a POP of its first. -/
theorem witness_StackAccessesStayInTheStackSegment :
    (withSp 0x204 State.reset).Inv ∧ (withSp 0x2FC State.reset).Inv ∧
    (∃ t, exec (.push 0) (withSp 0x204 State.reset) = .next t ∧ t.fault = none) ∧
    (∃ t, exec (.pop 0) (withSp 0x2FC State.reset) = .next t ∧ t.fault = none) :=
  ⟨by constructor <;> decide, by constructor <;> decide, ⟨_, rfl, rfl⟩, ⟨_, rfl, rfl⟩⟩

theorem witness_OnlyOutExtendsTheTrace :
    (∃ t, exec (.out 2) (machine 0 0 15 0) = .next t ∧ t.out = [(2, 15#32)]) ∧
      (∃ t, exec (.out 4) State.reset = .next t ∧ t.out = []) := ⟨⟨_, rfl, rfl⟩, ⟨_, rfl, rfl⟩⟩

/-- An instruction that is no control transfer, and a step of it at the last `pc`. -/
theorem witness_OnlyControlTransfersWritePc :
    isControlTransfer (.add 0 1 2) = false ∧ (∃ t, exec (.add 0 1 2) State.reset = .next t ∧ t.pc = 0#32) ∧
    (let s := placeWord { machine 0 1 2 0 with pc := 0xFF } 0x00000102#32
     decodeWord (s.mem.readWord s.pc.toNat) = .ok (.add 0 1 2) ∧
       ∃ t, step s = .next t ∧ t.halted = false ∧ t.pc = 0x103#32) :=
  ⟨rfl, ⟨_, rfl, rfl⟩, rfl, _, rfl, rfl, rfl⟩

/-- One step from the reset state, which runs `ADD R0, R0, R0` (P6). -/
theorem witness_RunsNeverChangeHpOrParameters :
    ∃ t, Reaches State.reset t ∧ t.pc = 4#32 :=
  ⟨_, .step (t := { State.reset with pc := 4#32, flags := ⟨true, false, false⟩ }) rfl (.refl _), rfl⟩

/-- The two sides of the bound. -/
theorem witness_MemReadIsBoundedLittleEndian :
    (1020#32).toNat + 4 ≤ 1024 ∧ 1024 < (1021#32).toNat + 4 ∧ 1024 < (0xFFFFFFFC#32).toNat + 4 := by decide

theorem witness_MemWriteOverwritesFourBytes :
    (1020#32).toNat + 4 ≤ 1024 ∧ 1024 < (1021#32).toNat + 4 := by decide

/-- A write at 0x100, with the words just below and just above it. -/
theorem witness_WrittenWordReadsBack :
    (∃ m', memWrite ⟨[]⟩ 0x100#32 0xDEADBEEF#32 = .ok m' ∧ m'.readByte 0x100 = 0xEF#8) ∧
      (0xFC#32).toNat + 4 ≤ (0x100#32).toNat ∧ (0x100#32).toNat + 4 ≤ (0x104#32).toNat :=
  ⟨⟨_, rfl, by decide⟩, by decide, by decide⟩

/-- One memory reached by two orders of writing. -/
theorem witness_CanonicalMemoriesThatReadAlikeAreEqual :
    (((⟨[]⟩ : Memory).writeByte 7 1).writeByte 3 2).wf ∧ (((⟨[]⟩ : Memory).writeByte 3 2).writeByte 7 1).wf ∧
      ∀ k, (((⟨[]⟩ : Memory).writeByte 7 1).writeByte 3 2).readByte k =
        (((⟨[]⟩ : Memory).writeByte 3 2).writeByte 7 1).readByte k :=
  ⟨by decide, by decide, fun _ => rfl⟩

/-- V5, last row, and the last address of the code segment. -/
theorem witness_StoreIntoCodeIsSeenByTheNextFetch :
    (let s := at0 0x11000100#32 0x19000000 4 0 0
     s.halted = false ∧ s.pc.toNat < 0x100 ∧ decodeWord (s.mem.readWord s.pc.toNat) = .ok (.store 0 1) ∧
       s.params.misalignedPolicy = .access ∧ (s.regs.get 1).toNat < 0x100) ∧
    (let s := at0 0x11000100#32 0x19000000 0xFF 0 0; (s.regs.get 1).toNat < 0x100) :=
  ⟨⟨rfl, by decide, rfl, rfl, by decide⟩, by decide⟩

/-- The last address, inside and outside the image. -/
theorem witness_ResetSetsEveryElement :
    1023 < 1024 ∧ (State.resetWith Params.default [0xAB#8]).mem.readByte 0 = 0xAB#8 ∧
      (State.resetWith Params.default [0xAB#8]).mem.readByte 1023 = 0x00#8 := by decide

theorem witness_LoadCodeCopiesAtMostTheCodeSegment :
    (List.replicate 256 0x19#8).length ≤ 256 ∧ 256 < (List.replicate 257 0x19#8).length := by
  rw [List.length_replicate, List.length_replicate]
  decide

/-- The last word of the largest program (the load of it, by its length), and a small program loaded. -/
theorem witness_LoadedWordsAreFetchedBack :
    (∃ t, loadCode (programBytes [0x19000000#32, 0x10000500#32]) State.reset = .ok t ∧ t.mem.readWord 4 = 0x10000500#32) ∧
    (∃ t, loadCode (programBytes (List.replicate 64 0x19000000#32)) State.reset = .ok t) ∧
      63 < (List.replicate 64 0x19000000#32).length := by
  refine ⟨⟨_, rfl, by decide⟩, ?_, by rw [List.length_replicate]; decide⟩
  have h : (programBytes (List.replicate 64 0x19000000#32)).length ≤ codeSize := by
    simp only [programBytes, List.length_flatMap, List.map_replicate, List.sum_replicate, wordBytes, List.length_cons,
      List.length_nil, codeSize, smul_eq_mul]
    decide
  exact ⟨_, by rw [loadCode, if_pos h]⟩

theorem witness_UncalledAluFunctionsSetFlagsAndClearO :
    State.reset.params.shiftAmount = .mask5 ∧ (otherMachine 0 0 0 0).params.shiftAmount = .saturate := by decide

/-- A zero divisor, an ordinary one, and the one pair whose quotient does not fit. -/
theorem witness_AluDivTruncatesAndHaltsOnZero :
    (aluDiv State.reset 5#32 0#32).2.fault = some .divideByZero ∧ 2#32 ≠ 0#32 ∧
      (aluDiv State.reset 5#32 2#32).1 = 2#32 ∧ (aluDiv State.reset 0x80000000#32 0xFFFFFFFF#32).1 = 0x80000000#32 := by
  decide

/-- Aligned and unaligned under both policies; operands at the boundary of each range; a pointer read and one refused. -/
theorem witness_ResolverFollowsItsModes :
    ((machine 0 0 0 0).params.misalignedPolicy = .access ∧ (otherMachine 0 0 0 0).params.misalignedPolicy = .fault ∧
      (8#32).toNat % 4 = 0 ∧ (9#32).toNat % 4 ≠ 0) ∧
    ((3#8).toNat < 4 ∧ 4 ≤ (4#8).toNat ∧ (0x3F#8).toNat / 16 < 4 ∧ 4 ≤ (0x40#8).toNat / 16) ∧
    dataRead (machine 0 0 0 0) (BitVec.ofNat 32 (8#8).toNat) = .ok 0#32 ∧
    dataRead (otherMachine 0 0 0 0) (BitVec.ofNat 32 (9#8).toNat) = .error .outOfBounds :=
  ⟨by decide, by decide, rfl, rfl⟩

/-- Registers 3 and 4 as each operand of ADD; the other two-source instructions have the same hypotheses. -/
theorem witness_AddWritesTheSumAndAllFlags :
    ((3#8).toNat < 4 ∧ 4 ≤ (4#8).toNat) ∧
    (∃ t, exec (.add 3 3 3) (machine 0 0 0 0x40000000) = .next t ∧ t.regs.r3 = 0x80000000#32 ∧ t.flags = ⟨false, true, true⟩) :=
  ⟨by decide, _, rfl, rfl, rfl⟩

theorem witness_SubWritesTheDifferenceAndAllFlags :
    ((3#8).toNat < 4 ∧ 4 ≤ (4#8).toNat) ∧ ∃ t, exec (.sub 3 3 3) (machine 0 0 0 7) = .next t ∧ t.flags = ⟨true, false, false⟩ :=
  ⟨by decide, _, rfl, rfl⟩

theorem witness_MulKeepsTheLowWordOfTheProduct :
    ((3#8).toNat < 4 ∧ 4 ≤ (4#8).toNat) ∧ ∃ t, exec (.mul 3 3 3) (machine 0 0 0 0xFFFFFFFF) = .next t ∧ t.regs.r3 = 1#32 :=
  ⟨by decide, _, rfl, rfl⟩

/-- A non-zero and a zero divisor. -/
theorem witness_DivIsUnsignedAndFaultsOnZero :
    ((3#8).toNat < 4 ∧ 4 ≤ (4#8).toNat) ∧ (machine 0 7 2 0).regs.get 2 ≠ 0#32 ∧ (machine 0 7 0 0).regs.get 2 = 0#32 := by
  decide

theorem witness_LogicIsBitwiseAndWritesNoFlag :
    ((3#8).toNat < 4 ∧ 4 ≤ (4#8).toNat) ∧ ∃ t, exec (.xor 3 0 1) (machine 5 3 0 0) = .next t ∧ t.regs.r3 = 6#32 :=
  ⟨by decide, _, rfl, rfl⟩

theorem witness_NotInvertsEveryBit :
    ((3#8).toNat < 4 ∧ 4 ≤ (4#8).toNat) ∧ ∃ t, exec (.not 3 3) (machine 0 0 0 1) = .next t ∧ t.regs.r3 = 0xFFFFFFFE#32 :=
  ⟨by decide, _, rfl, rfl⟩

/-- Both parameters, and the distances 31 and 32. -/
theorem witness_ShlMultipliesByAPowerOfTwo :
    ((3#8).toNat < 4 ∧ 4 ≤ (4#8).toNat) ∧ (machine 0 1 32 0).params.shiftAmount = .mask5 ∧
      (otherMachine 0 1 31 0).params.shiftAmount = .saturate ∧ ((otherMachine 0 1 31 0).regs.get 2).toNat < 32 ∧
      32 ≤ ((otherMachine 0 1 32 0).regs.get 2).toNat := by decide

theorem witness_ShrDividesByAPowerOfTwo :
    ((3#8).toNat < 4 ∧ 4 ≤ (4#8).toNat) ∧ (machine 0 1 32 0).params.shiftAmount = .mask5 ∧
      (otherMachine 0 1 31 0).params.shiftAmount = .saturate ∧ ((otherMachine 0 1 31 0).regs.get 2).toNat < 32 ∧
      32 ≤ ((otherMachine 0 1 32 0).regs.get 2).toNat := by decide

theorem witness_ComparisonsExecuteAsSignedRelations :
    (otherMachine 0 0 0 0).params.compareDispatch = .execute ∧ (3#8).toNat < 4 ∧ 4 ≤ (4#8).toNat ∧
      ∃ t, exec (.gt 3 1 2) (otherMachine 0 1 0xFFFFFFFF 0) = .next t ∧ t.regs.r3 = 1#32 :=
  ⟨rfl, by decide, by decide, _, rfl, rfl⟩

theorem witness_ComparisonsFaultByDefault :
    isComparison (.le 9 9 9) = true ∧ isComparison (.eq 0 1 2) = true ∧ State.reset.params.compareDispatch = .fault := by
  decide

theorem witness_LoadWritesItsLiteral :
    ((3#8).toNat < 4 ∧ 4 ≤ (4#8).toNat) ∧ ∃ t, exec (.load 3 255) State.reset = .next t ∧ t.regs.r3 = 0x000000FF#32 :=
  ⟨by decide, _, rfl, rfl⟩

/-- The highest address under each policy, the lowest out of bounds, an unaligned one refused. -/
theorem witness_StoreWritesTheWordAtTheAddress :
    ((3#8).toNat < 4 ∧ 4 ≤ (4#8).toNat) ∧
    (((machine 0 0 0 1020).regs.get 3).toNat ≤ 1020 ∧ (machine 0 0 0 1020).params.misalignedPolicy = .access) ∧
    (((otherMachine 0 0 0 1020).regs.get 3).toNat ≤ 1020 ∧ (otherMachine 0 0 0 1020).params.misalignedPolicy = .fault ∧
      ((otherMachine 0 0 0 1020).regs.get 3).toNat % 4 = 0) ∧
    1020 < ((machine 0 0 0 1021).regs.get 3).toNat ∧ ((otherMachine 0 0 0 1019).regs.get 3).toNat % 4 ≠ 0 := by decide

theorem witness_JumpsGoToTheirLiteralTarget :
    ({ State.reset with flags := ⟨true, false, false⟩ } : State).flags.z = true ∧ State.reset.flags.z = false := by decide

/-- The ends of the stack range CALL and PUSH accept, and the values just outside it. -/
theorem witness_CallPushesItsOwnAddress :
    ((3#8).toNat < 4 ∧ 4 ≤ (4#8).toNat) ∧
    (0x204 ≤ (withSp 0x204 State.reset).sp.toNat ∧ (withSp 0x204 State.reset).sp.toNat ≤ 0x400) ∧
    (0x204 ≤ (withSp 0x400 State.reset).sp.toNat ∧ (withSp 0x400 State.reset).sp.toNat ≤ 0x400) ∧
    (withSp 0x203 State.reset).sp.toNat < 0x204 ∧ 0x400 < (withSp 0x401 State.reset).sp.toNat := by decide

/-- The ends of the stack range RET and POP accept. -/
theorem witness_RetPopsIntoPc :
    (withSp 0x2FC State.reset).sp.toNat ≤ 0x2FC ∧ 0x2FC < (withSp 0x2FD State.reset).sp.toNat ∧
      0x2FC < State.reset.sp.toNat := by decide

theorem witness_RetAfterCallReturnsToTheCall :
    State.reset.Inv ∧ ∃ t, exec (.call 0) State.reset = .next t ∧ t.fault = none := ⟨reset_inv, _, rfl, rfl⟩

theorem witness_PushStoresBelowTheStackPointer :
    ((3#8).toNat < 4 ∧ 4 ≤ (4#8).toNat) ∧
    (0x204 ≤ (withSp 0x204 State.reset).sp.toNat ∧ (withSp 0x204 State.reset).sp.toNat ≤ 0x400) ∧
    (0x204 ≤ (withSp 0x400 State.reset).sp.toNat ∧ (withSp 0x400 State.reset).sp.toNat ≤ 0x400) ∧
    (withSp 0x203 State.reset).sp.toNat < 0x204 ∧ 0x400 < (withSp 0x401 State.reset).sp.toNat := by decide

theorem witness_PopReadsTheTopOfTheStack :
    ((3#8).toNat < 4 ∧ 4 ≤ (4#8).toNat) ∧ (withSp 0x2FC State.reset).sp.toNat ≤ 0x2FC ∧
      0x2FC < (withSp 0x2FD State.reset).sp.toNat := by decide

/-- 64 and 65 register operands, from the reset state. -/
theorem witness_TheStackHoldsExactlySixtyFourWords :
    (∀ r ∈ List.replicate 65 3#8, r.toNat < 4) ∧ State.reset.sp = 0x300#32 ∧ State.reset.halted = false ∧
      (List.replicate 64 3#8).length ≤ 64 ∧ 64 < (List.replicate 65 3#8).length :=
  ⟨fun r h => by rw [List.eq_of_mem_replicate h]; decide, rfl, rfl, by rw [List.length_replicate], by rw [List.length_replicate]; decide⟩

theorem witness_HaltSetsHaltedAlone :
    (at0 0x19000000#32 0 0 0 0).halted = false ∧ (at0 0x19000000#32 0 0 0 0).pc.toNat < 0x100 ∧
      decodeWord ((at0 0x19000000#32 0 0 0 0).mem.readWord (at0 0x19000000#32 0 0 0 0).pc.toNat) = .ok .halt :=
  ⟨rfl, by decide, rfl⟩

theorem witness_OutAppendsToTheTrace :
    ((3#8).toNat < 4 ∧ 4 ≤ (4#8).toNat) ∧ ∃ t, exec (.out 3) (machine 0 0 0 9) = .next t ∧ t.out = [(3, 9#32)] :=
  ⟨by decide, _, rfl, rfl⟩

end Sys2Proof.Tests
end

section
/-! PROOFS. Faults are precise (00_scope.md R10): an instruction makes its checks before it writes, so it ends either in
the fault raised from the state before it, or in a state whose `fault` it never wrote. The same argument covers `hp` and
the parameters. -/

namespace Sys2Proof.Machine

/-! ### What a result can be -/

/-- The elements that no instruction writes unless it faults: `fault` (00_scope.md R10), and `hp` and the parameters,
which not even a fault writes (10_state.md R27, 00_scope.md R7). -/
def State.unwritten (s : State) : Option RunFault × Word × Params := (s.fault, s.hp, s.params)

theorem unwritten_eq_iff {s t : State} :
    t.unwritten = s.unwritten ↔ t.fault = s.fault ∧ t.hp = s.hp ∧ t.params = s.params := by
  simp [State.unwritten]

@[simp] theorem unwritten_advance (pc0 : Word) (t : State) : (advance pc0 t).unwritten = t.unwritten := by
  simp [State.unwritten]

/-- From `s`, the outcome `r` is a fault raised from `s` itself or keeps what no instruction writes. -/
def PreciseFrom (s : State) (r : Result) : Prop :=
  ∀ t, r = .next t → (∃ f, t = s.raise f) ∨ t.unwritten = s.unwritten

theorem preciseFrom_raise (s : State) (f : RunFault) : PreciseFrom s (.next (s.raise f)) := by
  rintro _ ⟨⟩
  exact .inl ⟨f, rfl⟩

theorem preciseFrom_next {s u : State} (h : u.unwritten = s.unwritten) : PreciseFrom s (.next u) := by
  rintro _ ⟨⟩
  exact .inr h

/-- `conclude` raises a fault from the state before the instruction, so only completing is left to look at. -/
theorem preciseFrom_conclude {s : State} {r : Except RunFault State}
    (h : ∀ t, r = .ok t → t.unwritten = s.unwritten) : PreciseFrom s (conclude s r) := by
  cases r with
  | ok u => exact preciseFrom_next (h u rfl)
  | error f => exact preciseFrom_raise s f

/-! ### The register instructions -/

/-- From `s`, the operation of a two-source instruction writes at most the flags where it completes. -/
def WritesFlagsAtMost (s : State) (f : State → Word → Word → Except RunFault (Word × State)) : Prop :=
  ∀ a b r u, f s a b = .ok (r, u) → u = { s with flags := u.flags }

theorem direct_writesFlagsAtMost (s : State) (g : Word → Word → Word) : WritesFlagsAtMost s (direct g) := by
  rintro a b _ _ ⟨⟩
  rfl

theorem divide_writesFlagsAtMost (s : State) : WritesFlagsAtMost s divide := by
  intro a b r u h
  obtain ⟨_, _, rfl⟩ := divide_ok.mp h
  rfl

theorem viaAlu_writesFlagsAtMost {s : State} {f : State → Word → Word → Word × State}
    (hf : ∀ a b, (f s a b).2 = { s with flags := (f s a b).2.flags }) : WritesFlagsAtMost s (viaAlu f) := by
  intro a b r u h
  have hu : f s a b = (r, u) := by simpa using h
  simpa only [hu] using hf a b

/-- A two-source instruction that completes writes registers and flags alone. -/
theorem binaryResult_writes_regs_flags {s t : State} {opcode : Byte}
    {f : State → Word → Word → Except RunFault (Word × State)} {d s1 s2 : Byte}
    (h1 : modeTable opcode .op1 = .register) (h2 : modeTable opcode .op2 = .register) (hf : WritesFlagsAtMost s f)
    (h : binaryResult s opcode f d s1 s2 = .ok t) : t = { s with regs := t.regs, flags := t.flags } := by
  obtain ⟨i1, i2, i, r, u, _, _, _, hu, rfl⟩ := (binaryResult_ok h1 h2).mp h
  rw [hf _ _ _ _ hu]
  rfl

theorem preciseFrom_binaryResult {s : State} {opcode : Byte} {f : State → Word → Word → Except RunFault (Word × State)}
    {d s1 s2 : Byte} (h1 : modeTable opcode .op1 = .register) (h2 : modeTable opcode .op2 = .register)
    (hf : WritesFlagsAtMost s f) : PreciseFrom s (conclude s (binaryResult s opcode f d s1 s2)) :=
  preciseFrom_conclude fun t h => by
    rw [binaryResult_writes_regs_flags h1 h2 hf h]
    rfl

theorem preciseFrom_unaryResult {s : State} {opcode : Byte} {f : Word → Word} {d s1 : Byte}
    (h1 : modeTable opcode .op1 = .register) : PreciseFrom s (conclude s (unaryResult s opcode f d s1)) :=
  preciseFrom_conclude fun t h => by
    obtain ⟨_, _, _, _, rfl⟩ := (unaryResult_ok h1).mp h
    rfl

/-- A comparison that is not dispatchable raises its fault before anything else (44_compare.md R180). -/
theorem preciseFrom_compareExec {s : State} {opcode : Byte} {f : State → Word → Word → Word × State} {d s1 s2 : Byte}
    (h1 : modeTable opcode .op1 = .register) (h2 : modeTable opcode .op2 = .register)
    (hf : ∀ a b, (f s a b).2 = { s with flags := (f s a b).2.flags }) :
    PreciseFrom s (compareExec s opcode f d s1 s2) := by
  cases hc : s.params.compareDispatch with
  | fault =>
    rw [compareExec_fault hc]
    exact preciseFrom_raise s _
  | execute =>
    rw [compareExec_execute hc]
    exact preciseFrom_binaryResult h1 h2 (viaAlu_writesFlagsAtMost hf)

/-! ### Memory, the stack and the trace -/

theorem storeResult_keeps_unwritten {s t : State} {v a : Byte} (h : storeResult s v a = .ok t) :
    t.unwritten = s.unwritten := by
  obtain ⟨_, _, _, _, _, _, rfl⟩ := storeResult_ok.mp h
  rfl

theorem callResult_keeps_unwritten {s t : State} {s1 : Byte} (h : callResult s s1 = .ok t) :
    t.unwritten = s.unwritten := by
  obtain ⟨_, _, _, _, rfl⟩ := callResult_ok.mp h
  rfl

theorem retResult_keeps_unwritten {s t : State} (h : retResult s = .ok t) : t.unwritten = s.unwritten := by
  obtain ⟨_, _, rfl⟩ := retResult_ok.mp h
  rfl

theorem pushResult_keeps_unwritten {s t : State} {s1 : Byte} (h : pushResult s s1 = .ok t) :
    t.unwritten = s.unwritten := by
  obtain ⟨_, _, _, _, rfl⟩ := pushResult_ok.mp h
  rfl

theorem popResult_keeps_unwritten {s t : State} {d : Byte} (h : popResult s d = .ok t) :
    t.unwritten = s.unwritten := by
  obtain ⟨_, _, _, _, rfl⟩ := popResult_ok.mp h
  rfl

theorem loadResult_keeps_unwritten {s t : State} {d imm : Byte} (h : loadResult s d imm = .ok t) :
    t.unwritten = s.unwritten := by
  obtain ⟨_, _, rfl⟩ := loadResult_ok.mp h
  rfl

theorem outResult_keeps_unwritten {s t : State} {s1 : Byte} (h : outResult s s1 = .ok t) :
    t.unwritten = s.unwritten := by
  obtain ⟨_, _, rfl⟩ := outResult_ok.mp h
  rfl

/-! ### Every instruction and every step -/

theorem exec_preciseFrom (i : Instr) (s : State) : PreciseFrom s (exec i s) := by
  cases i with
  | add d a b => exact preciseFrom_binaryResult rfl rfl (viaAlu_writesFlagsAtMost fun _ _ => rfl)
  | sub d a b => exact preciseFrom_binaryResult rfl rfl (viaAlu_writesFlagsAtMost fun _ _ => rfl)
  | mul d a b => exact preciseFrom_binaryResult rfl rfl (direct_writesFlagsAtMost s _)
  | div d a b => exact preciseFrom_binaryResult rfl rfl (divide_writesFlagsAtMost s)
  | and d a b => exact preciseFrom_binaryResult rfl rfl (direct_writesFlagsAtMost s _)
  | or d a b => exact preciseFrom_binaryResult rfl rfl (direct_writesFlagsAtMost s _)
  | xor d a b => exact preciseFrom_binaryResult rfl rfl (direct_writesFlagsAtMost s _)
  | not d a => exact preciseFrom_unaryResult rfl
  | shl d a b => exact preciseFrom_binaryResult rfl rfl (direct_writesFlagsAtMost s _)
  | shr d a b => exact preciseFrom_binaryResult rfl rfl (direct_writesFlagsAtMost s _)
  | eq d a b => exact preciseFrom_compareExec rfl rfl fun _ _ => rfl
  | neq d a b => exact preciseFrom_compareExec rfl rfl fun _ _ => rfl
  | gt d a b => exact preciseFrom_compareExec rfl rfl fun _ _ => rfl
  | lt d a b => exact preciseFrom_compareExec rfl rfl fun _ _ => rfl
  | ge d a b => exact preciseFrom_compareExec rfl rfl fun _ _ => rfl
  | le d a b => exact preciseFrom_compareExec rfl rfl fun _ _ => rfl
  | load d imm => exact preciseFrom_conclude fun _ => loadResult_keeps_unwritten
  | store v a => exact preciseFrom_conclude fun _ => storeResult_keeps_unwritten
  | jump tgt => exact preciseFrom_next rfl
  | jz tgt =>
    rw [exec_jz]
    exact preciseFrom_next (by split <;> rfl)
  | jnz tgt =>
    rw [exec_jnz]
    exact preciseFrom_next (by split <;> rfl)
  | call r => exact preciseFrom_conclude fun _ => callResult_keeps_unwritten
  | ret => exact preciseFrom_conclude fun _ => retResult_keeps_unwritten
  | push r => exact preciseFrom_conclude fun _ => pushResult_keeps_unwritten
  | pop d => exact preciseFrom_conclude fun _ => popResult_keeps_unwritten
  | halt => exact preciseFrom_next rfl
  | out r => exact preciseFrom_conclude fun _ => outResult_keeps_unwritten

/-- A step raises a fault of its own, or advances what its instruction answered: the advance leaves a fault as it is,
because a fault halts (41_execution_cycle.md R145). -/
theorem step_preciseFrom (s : State) : PreciseFrom s (step s) := by
  intro t h
  obtain ⟨_, ⟨_, hfetch⟩ | ⟨_, ⟨_, _, hdecode⟩ | ⟨i, u, _, hexec, rfl⟩⟩⟩ := step_next h
  · exact .inl ⟨_, hfetch⟩
  · exact .inl ⟨_, hdecode⟩
  · rcases exec_preciseFrom i s u hexec with ⟨f, rfl⟩ | hkept
    · exact .inl ⟨f, advance_of_halted rfl⟩
    · exact .inr ((unwritten_advance s.pc u).trans hkept)

/-- The two cases of a precise outcome, as the statement spells them. -/
theorem PreciseFrom.raised_or_fault_kept {s t : State} {r : Result} (hp : PreciseFrom s r) (h : r = .next t) :
    (∃ f, t = { s with halted := true, fault := some f }) ∨ t.fault = s.fault :=
  (hp t h).imp id fun hkept => (unwritten_eq_iff.mp hkept).1

/-- Settles O12: `conclude` raises every fault from the state before the instruction, and no other write reaches
`fault`, instruction by instruction; the step adds only faults of its own and the advance. -/
theorem faultsArePrecise : Obligations.FaultsArePrecise := by
  unfold Obligations.FaultsArePrecise
  exact ⟨fun s _ h => (step_preciseFrom s).raised_or_fault_kept h,
    fun i s _ h => (exec_preciseFrom i s).raised_or_fault_kept h⟩

end Sys2Proof.Machine
end

section
/-! PROOFS. What an instruction can do, said once for all of them: each of the 27 has one of twelve effects, and the
effect depends only on the steering part of the state (10_state.md section 1; 00_scope.md R10). -/

namespace Sys2Proof.Machine

/-! ### The part of a state that no instruction reads -/

/-- The elements that are not in `State.steering` (10_state.md R27, R30, R32, R42). -/
structure Unread where
  n : Bool
  o : Bool
  hp : Word
  fault : Option RunFault
  out : List (Fin 4 × Word)

/-- `s` with other unread elements. -/
def State.withUnread (s : State) (u : Unread) : State :=
  { s with flags := { s.flags with n := u.n, o := u.o }, hp := u.hp, fault := u.fault, out := u.out }

@[simp] theorem withUnread_regs (s : State) (u : Unread) : (s.withUnread u).regs = s.regs := rfl

/-- States that agree on their steering part differ in unread elements alone. -/
theorem exists_withUnread_of_steering_eq {s s' : State} (h : s'.steering = s.steering) : ∃ u, s' = s.withUnread u := by
  obtain ⟨_, _, _, _, ⟨_, _, _⟩, _, _, _, _, _⟩ := s
  obtain ⟨_, _, _, hp, ⟨_, n, o⟩, _, fault, _, out, _⟩ := s'
  simp only [State.steering, Steering.mk.injEq] at h
  obtain ⟨rfl, rfl, rfl, rfl, rfl, rfl, rfl⟩ := h
  exact ⟨⟨n, o, hp, fault, out⟩, rfl⟩

/-! ### Effects -/

/-- What an instruction does to a state. -/
inductive Effect where
  | raise (f : RunFault)
  /-- A register is written, no flag. -/
  | write (j : Fin 4) (v : Word)
  /-- A result is written with its flags (40_alu.md R110). -/
  | compute (j : Fin 4) (r : Word) (ovf : Bool)
  | store (addr v : Word)
  /-- A conditional jump that is not taken. -/
  | stay
  | jump (tgt : Word)
  | call (tgt : Word)
  | ret
  | push (v : Word)
  | pop (j : Fin 4)
  | halt
  | emit (j : Fin 4)

/-- The state after an effect. -/
def Effect.apply (s : State) : Effect → State
  | .raise f => s.raise f
  | .write j v => s.setReg j v
  | .compute j r ovf => (s.setFlags r ovf).setReg j r
  | .store addr v => { s with mem := s.mem.writeWord addr.toNat v }
  | .stay => s
  | .jump tgt => { s with pc := tgt }
  | .call tgt => { s with pc := tgt, sp := s.sp - 4#32, mem := s.mem.writeWord (s.sp - 4#32).toNat s.pc }
  | .ret => { s with pc := s.mem.readWord s.sp.toNat, sp := s.sp + 4#32 }
  | .push v => { s with sp := s.sp - 4#32, mem := s.mem.writeWord (s.sp - 4#32).toNat v }
  | .pop j => { s with sp := s.sp + 4#32, regs := s.regs.set j (s.mem.readWord s.sp.toNat) }
  | .halt => { s with halted := true }
  | .emit j => { s with out := s.out ++ [(j, s.regs.get j)] }

/-- The instruction writes the flags in `s` where it completes (10_state.md R29). -/
def SetsFlags (s : State) (i : Instr) : Prop :=
  (∃ d a b, i = .add d a b ∨ i = .sub d a b) ∨ (isComparison i = true ∧ s.params.compareDispatch = .execute)

/-- Which effects an instruction can have in the state `s`. -/
inductive Effect.Of (s : State) : Instr → Effect → Prop where
  | raise {i : Instr} (f : RunFault) : Of s i (.raise f)
  | write {i : Instr} {d : Byte} {j : Fin 4} (v : Word) (hd : destination i = some d) (hj : regIndex d = .ok j) :
      Of s i (.write j v)
  | compute {i : Instr} {d : Byte} {j : Fin 4} (r : Word) (ovf : Bool) (hi : SetsFlags s i)
      (hd : destination i = some d) (hj : regIndex d = .ok j) : Of s i (.compute j r ovf)
  | store {v a : Byte} {jv ja : Fin 4} (hv : regIndex v = .ok jv) (ha : regIndex a = .ok ja)
      (hb : inBounds (s.regs.get ja) = true) : Of s (.store v a) (.store (s.regs.get ja) (s.regs.get jv))
  | stay {i : Instr} (hi : isControlTransfer i = true) : Of s i .stay
  | jump {i : Instr} (tgt : Word) (hi : isControlTransfer i = true) : Of s i (.jump tgt)
  | call {r : Byte} (tgt : Word) (hp : pushOk s.sp = true) (hb : inBounds (s.sp - 4#32) = true) :
      Of s (.call r) (.call tgt)
  | ret (hp : popOk s.sp = true) : Of s .ret .ret
  | push {r : Byte} (v : Word) (hp : pushOk s.sp = true) (hb : inBounds (s.sp - 4#32) = true) :
      Of s (.push r) (.push v)
  | pop {d : Byte} {j : Fin 4} (hj : regIndex d = .ok j) (hp : popOk s.sp = true) : Of s (.pop d) (.pop j)
  | halt : Of s .halt .halt
  | emit {r : Byte} {j : Fin 4} (hj : regIndex r = .ok j) : Of s (.out r) (.emit j)

/-- In `s`, and in every state that differs from it in unread elements alone, the instruction has the same effect, one
of those it can have. -/
def HasEffect (s : State) (i : Instr) : Prop :=
  ∃ e, Effect.Of s i e ∧ ∀ u, exec i (s.withUnread u) = .next (e.apply (s.withUnread u))

/-! ### The register instructions -/

/-- What the operation of a two-source instruction can answer on the operands `x` and `y`, in `s` and in every state
that differs from it in unread elements alone. -/
inductive OperationAnswers (s : State) (i : Instr) (f : State → Word → Word → Except RunFault (Word × State))
    (x y : Word) : Prop where
  | fault (e : RunFault) (h : ∀ u, f (s.withUnread u) x y = .error e)
  | result (r : Word) (h : ∀ u, f (s.withUnread u) x y = .ok (r, s.withUnread u))
  | resultAndFlags (hi : SetsFlags s i) (r : Word) (ovf : Bool)
      (h : ∀ u, f (s.withUnread u) x y = .ok (r, (s.withUnread u).setFlags r ovf))

theorem direct_answers (s : State) (i : Instr) (g : Word → Word → Word) (x y : Word) :
    OperationAnswers s i (direct g) x y :=
  .result (g x y) fun _ => rfl

theorem divide_answers (s : State) (i : Instr) (x y : Word) : OperationAnswers s i divide x y := by
  by_cases h : y = 0#32
  · exact .fault .divideByZero fun _ => divide_error.mpr ⟨h, rfl⟩
  · exact .result _ fun _ => divide_ok.mpr ⟨h, rfl, rfl⟩

/-- An ALU function that computes its result and its overflow from the operands alone. -/
theorem viaAlu_answers {s : State} {i : Instr} {f : State → Word → Word → Word × State} {g : Word → Word → Word}
    {ovf : Word → Word → Bool} (hi : SetsFlags s i) (hf : ∀ s x y, f s x y = withFlags s (g x y) (ovf x y))
    (x y : Word) : OperationAnswers s i (viaAlu f) x y :=
  .resultAndFlags hi (g x y) (ovf x y) fun u => congrArg Except.ok (hf (s.withUnread u) x y)

theorem hasEffect_of_binaryResult {s : State} {i : Instr} {opcode : Byte}
    {f : State → Word → Word → Except RunFault (Word × State)} {d s1 s2 : Byte}
    (h1 : modeTable opcode .op1 = .register) (h2 : modeTable opcode .op2 = .register) (hd : destination i = some d)
    (hexec : ∀ u, exec i (s.withUnread u) =
      conclude (s.withUnread u) (binaryResult (s.withUnread u) opcode f d s1 s2))
    (hf : ∀ x y, OperationAnswers s i f x y) : HasEffect s i := by
  by_cases hbad : 4 ≤ s1.toNat ∨ 4 ≤ s2.toNat ∨ 4 ≤ d.toNat
  · refine ⟨_, .raise .invalidRegister, fun u => ?_⟩
    rw [hexec u, binaryResult_invalid h1 h2 hbad]
    rfl
  · obtain ⟨ha, hb, hlt⟩ : s1.toNat < 4 ∧ s2.toNat < 4 ∧ d.toNat < 4 := by omega
    cases hf (s.regs.get ⟨s1.toNat, ha⟩) (s.regs.get ⟨s2.toNat, hb⟩) with
    | fault e h =>
      refine ⟨_, .raise e, fun u => ?_⟩
      rw [hexec u, binaryResult_of_lt h1 h2 hlt ha hb, withUnread_regs, h u]
      rfl
    | result r h =>
      refine ⟨_, .write r hd (regIndex_of_lt hlt), fun u => ?_⟩
      rw [hexec u, binaryResult_of_lt h1 h2 hlt ha hb, withUnread_regs, h u]
      rfl
    | resultAndFlags hi r ovf h =>
      refine ⟨_, .compute r ovf hi hd (regIndex_of_lt hlt), fun u => ?_⟩
      rw [hexec u, binaryResult_of_lt h1 h2 hlt ha hb, withUnread_regs, h u]
      rfl

/-- A comparison faults before anything else under `Fault`, and is an ALU instruction under `Execute`
(44_compare.md R180, R181). -/
theorem hasEffect_of_compareExec {s : State} {i : Instr} {opcode : Byte} {f : State → Word → Word → Word × State}
    {g : Word → Word → Word} {d s1 s2 : Byte} (hi : isComparison i = true) (h1 : modeTable opcode .op1 = .register)
    (h2 : modeTable opcode .op2 = .register) (hd : destination i = some d)
    (hexec : ∀ u, exec i (s.withUnread u) = compareExec (s.withUnread u) opcode f d s1 s2)
    (hf : ∀ s x y, f s x y = withFlags s (g x y) false) : HasEffect s i := by
  cases hc : s.params.compareDispatch with
  | fault => exact ⟨_, .raise .invalidOpcode, fun u => (hexec u).trans (compareExec_fault hc)⟩
  | execute =>
    exact hasEffect_of_binaryResult h1 h2 hd (fun u => (hexec u).trans (compareExec_execute hc))
      (viaAlu_answers (.inr ⟨hi, hc⟩) hf)

theorem hasEffect_not (s : State) (d s1 : Byte) : HasEffect s (.not d s1) := by
  have hmode : modeTable 0x07#8 .op1 = .register := rfl
  cases ha : regIndex s1 with
  | error f =>
    refine ⟨_, .raise f, fun u => ?_⟩
    rw [exec_not, unaryResult, resolveSlot_register _ _ hmode, resolveRegister_error.mpr ha]
    rfl
  | ok ja =>
    cases hd : regIndex d with
    | error f =>
      refine ⟨_, .raise f, fun u => ?_⟩
      rw [exec_not, unaryResult, resolveSlot_register _ _ hmode, resolveRegister_ok.mpr ⟨ja, ha, rfl⟩, hd]
      rfl
    | ok j =>
      refine ⟨_, .write (~~~s.regs.get ja) rfl hd, fun u => ?_⟩
      rw [exec_not, (unaryResult_ok hmode).mpr ⟨ja, j, ha, hd, rfl⟩]
      rfl

/-! ### Memory, control transfer, the stack and the trace -/

/-- An instruction that concludes a result function of the state: where that function faults it faults whatever the
unread elements are, and where it completes it completes with one effect. -/
theorem hasEffect_of_conclude {s : State} {i : Instr} {F : State → Except RunFault State}
    (hexec : ∀ t, exec i t = conclude t (F t))
    (herror : ∀ f, F s = .error f → ∀ u, F (s.withUnread u) = .error f)
    (hok : ∀ t, F s = .ok t → ∃ e, Effect.Of s i e ∧ ∀ u, F (s.withUnread u) = .ok (e.apply (s.withUnread u))) :
    HasEffect s i := by
  cases hF : F s with
  | error f => exact ⟨_, .raise f, fun u => by rw [hexec, herror f hF u]; rfl⟩
  | ok t =>
    obtain ⟨e, he, h⟩ := hok t hF
    exact ⟨e, he, fun u => by rw [hexec, h u]; rfl⟩

theorem hasEffect_load (s : State) (d imm : Byte) : HasEffect s (.load d imm) := by
  refine hasEffect_of_conclude (exec_load · d imm) (fun f h _ => loadResult_error.mpr (loadResult_error.mp h))
    fun t h => ?_
  obtain ⟨j, hj, _⟩ := loadResult_ok.mp h
  exact ⟨_, .write _ rfl hj, fun _ => loadResult_ok.mpr ⟨j, hj, rfl⟩⟩

theorem hasEffect_store (s : State) (v a : Byte) : HasEffect s (.store v a) := by
  refine hasEffect_of_conclude (exec_store · v a)
    (fun f h _ => storeResult_error.mpr ((storeResult_error (s := s)).mp h)) fun t h => ?_
  obtain ⟨jv, ja, hv, ha, hal, hb, _⟩ := storeResult_ok.mp h
  exact ⟨_, .store hv ha hb, fun _ => storeResult_ok.mpr ⟨jv, ja, hv, ha, hal, hb, rfl⟩⟩

theorem hasEffect_jz (s : State) (tgt : Byte) : HasEffect s (.jz tgt) := by
  cases hz : s.flags.z with
  | true => exact ⟨_, .jump (tgt.setWidth 32) rfl, fun _ => (exec_jz _ tgt).trans (congrArg _ (if_pos hz))⟩
  | false => exact ⟨_, .stay rfl, fun _ => (exec_jz _ tgt).trans (congrArg _ (if_neg (by simp [State.withUnread, hz])))⟩

theorem hasEffect_jnz (s : State) (tgt : Byte) : HasEffect s (.jnz tgt) := by
  cases hz : s.flags.z with
  | true => exact ⟨_, .stay rfl, fun _ => (exec_jnz _ tgt).trans (congrArg _ (if_pos hz))⟩
  | false =>
    exact ⟨_, .jump (tgt.setWidth 32) rfl,
      fun _ => (exec_jnz _ tgt).trans (congrArg _ (if_neg (by simp [State.withUnread, hz])))⟩

theorem hasEffect_call (s : State) (r : Byte) : HasEffect s (.call r) := by
  refine hasEffect_of_conclude (exec_call · r)
    (fun f h _ => callResult_error.mpr ((callResult_error (s := s)).mp h)) fun t h => ?_
  obtain ⟨j, hj, hp, hb, _⟩ := callResult_ok.mp h
  exact ⟨_, .call (s.regs.get j) hp hb, fun _ => callResult_ok.mpr ⟨j, hj, hp, hb, rfl⟩⟩

theorem hasEffect_ret (s : State) : HasEffect s .ret := by
  refine hasEffect_of_conclude exec_ret
    (fun f h _ => retResult_error.mpr ((retResult_error (s := s)).mp h)) fun t h => ?_
  obtain ⟨hp, hb, _⟩ := retResult_ok.mp h
  exact ⟨_, .ret hp, fun _ => retResult_ok.mpr ⟨hp, hb, rfl⟩⟩

theorem hasEffect_push (s : State) (r : Byte) : HasEffect s (.push r) := by
  refine hasEffect_of_conclude (exec_push · r)
    (fun f h _ => pushResult_error.mpr ((pushResult_error (s := s)).mp h)) fun t h => ?_
  obtain ⟨j, hj, hp, hb, _⟩ := pushResult_ok.mp h
  exact ⟨_, .push (s.regs.get j) hp hb, fun _ => pushResult_ok.mpr ⟨j, hj, hp, hb, rfl⟩⟩

theorem hasEffect_pop (s : State) (d : Byte) : HasEffect s (.pop d) := by
  refine hasEffect_of_conclude (exec_pop · d)
    (fun f h _ => popResult_error.mpr ((popResult_error (s := s)).mp h)) fun t h => ?_
  obtain ⟨j, hj, hp, hb, _⟩ := popResult_ok.mp h
  exact ⟨_, .pop hj hp, fun _ => popResult_ok.mpr ⟨j, hj, hp, hb, rfl⟩⟩

theorem hasEffect_out (s : State) (r : Byte) : HasEffect s (.out r) := by
  refine hasEffect_of_conclude (exec_out · r) (fun f h _ => outResult_error.mpr (outResult_error.mp h)) fun t h => ?_
  obtain ⟨j, hj, _⟩ := outResult_ok.mp h
  exact ⟨_, .emit hj, fun _ => outResult_ok.mpr ⟨j, hj, rfl⟩⟩

/-! ### Every instruction -/

theorem hasEffect (s : State) (i : Instr) : HasEffect s i := by
  cases i with
  | add d a b =>
    exact hasEffect_of_binaryResult rfl rfl rfl (fun _ => exec_add _ d a b)
      (viaAlu_answers (.inl ⟨d, a, b, .inl rfl⟩) fun _ _ _ => rfl)
  | sub d a b =>
    exact hasEffect_of_binaryResult rfl rfl rfl (fun _ => exec_sub _ d a b)
      (viaAlu_answers (.inl ⟨d, a, b, .inr rfl⟩) fun _ _ _ => rfl)
  | mul d a b => exact hasEffect_of_binaryResult rfl rfl rfl (fun _ => exec_mul _ d a b) (direct_answers s _ _)
  | div d a b => exact hasEffect_of_binaryResult rfl rfl rfl (fun _ => exec_div _ d a b) (divide_answers s _)
  | and d a b => exact hasEffect_of_binaryResult rfl rfl rfl (fun _ => exec_and _ d a b) (direct_answers s _ _)
  | or d a b => exact hasEffect_of_binaryResult rfl rfl rfl (fun _ => exec_or _ d a b) (direct_answers s _ _)
  | xor d a b => exact hasEffect_of_binaryResult rfl rfl rfl (fun _ => exec_xor _ d a b) (direct_answers s _ _)
  | not d a => exact hasEffect_not s d a
  | shl d a b =>
    exact hasEffect_of_binaryResult rfl rfl rfl (fun u => exec_shl (s.withUnread u) d a b)
      (direct_answers s _ fun x y => shiftLeft x (shiftDistance s.params y))
  | shr d a b =>
    exact hasEffect_of_binaryResult rfl rfl rfl (fun u => exec_shr (s.withUnread u) d a b)
      (direct_answers s _ fun x y => shiftRight x (shiftDistance s.params y))
  | eq d a b => exact hasEffect_of_compareExec rfl rfl rfl rfl (fun _ => exec_eq _ d a b) fun _ _ _ => rfl
  | neq d a b => exact hasEffect_of_compareExec rfl rfl rfl rfl (fun _ => exec_neq _ d a b) fun _ _ _ => rfl
  | gt d a b => exact hasEffect_of_compareExec rfl rfl rfl rfl (fun _ => exec_gt _ d a b) fun _ _ _ => rfl
  | lt d a b => exact hasEffect_of_compareExec rfl rfl rfl rfl (fun _ => exec_lt _ d a b) fun _ _ _ => rfl
  | ge d a b => exact hasEffect_of_compareExec rfl rfl rfl rfl (fun _ => exec_ge _ d a b) fun _ _ _ => rfl
  | le d a b => exact hasEffect_of_compareExec rfl rfl rfl rfl (fun _ => exec_le _ d a b) fun _ _ _ => rfl
  | load d imm => exact hasEffect_load s d imm
  | store v a => exact hasEffect_store s v a
  | jump tgt => exact ⟨_, .jump (tgt.setWidth 32) rfl, fun _ => exec_jump _ tgt⟩
  | jz tgt => exact hasEffect_jz s tgt
  | jnz tgt => exact hasEffect_jnz s tgt
  | call r => exact hasEffect_call s r
  | ret => exact hasEffect_ret s
  | push r => exact hasEffect_push s r
  | pop d => exact hasEffect_pop s d
  | halt => exact ⟨_, .halt, fun _ => exec_halt _⟩
  | out r => exact hasEffect_out s r

/-- The effect of an instruction is the same in all states that agree on their steering part. -/
theorem exec_effect (i : Instr) (s : State) :
    ∃ e, Effect.Of s i e ∧ ∀ s', s'.steering = s.steering → exec i s' = .next (e.apply s') := by
  obtain ⟨e, he, h⟩ := hasEffect s i
  refine ⟨e, he, fun s' hs => ?_⟩
  obtain ⟨u, rfl⟩ := exists_withUnread_of_steering_eq hs
  exact h u

/-- Every next state of an instruction is the state after one of its effects. -/
theorem exec_next {i : Instr} {s t : State} (h : exec i s = .next t) : ∃ e, Effect.Of s i e ∧ t = e.apply s := by
  obtain ⟨e, he, hexec⟩ := exec_effect i s
  exact ⟨e, he, by simpa [h] using hexec s rfl⟩

end Sys2Proof.Machine
end

section
/-! PROOFS. Frames over all instructions, read off the effects (10_state.md R21, R23, R25, R26, R29, R42). -/

namespace Sys2Proof.Machine

/-- Settles O19: `compute` is the only effect that writes flags. -/
theorem onlyAddSubAndComparisonsWriteFlags : Obligations.OnlyAddSubAndComparisonsWriteFlags := by
  unfold Obligations.OnlyAddSubAndComparisonsWriteFlags
  intro i s t h hne
  obtain ⟨e, he, rfl⟩ := exec_next h
  cases he with
  | compute r ovf hi => exact hi
  | _ => exact absurd rfl hne

/-- Settles O20: the stack effects move `sp` by 4, and no other effect writes it. -/
theorem onlyStackInstrsMoveSpByFour : Obligations.OnlyStackInstrsMoveSpByFour := by
  unfold Obligations.OnlyStackInstrsMoveSpByFour
  intro i s t h
  obtain ⟨e, he, rfl⟩ := exec_next h
  cases he with
  | @push r => exact .inr (.inl ⟨⟨r, .inl rfl⟩, rfl⟩)
  | @call r => exact .inr (.inl ⟨⟨r, .inr rfl⟩, rfl⟩)
  | ret => exact .inr (.inr ⟨.inl rfl, rfl⟩)
  | @pop d => exact .inr (.inr ⟨.inr ⟨d, rfl⟩, rfl⟩)
  | _ => exact .inl rfl

/-- Settles O21: the three effects that write a register write the one of the destination slot. -/
theorem onlyTheDestinationRegisterIsWritten : Obligations.OnlyTheDestinationRegisterIsWritten := by
  unfold Obligations.OnlyTheDestinationRegisterIsWritten
  intro i s t j h hother
  have kept {d : Byte} {k : Fin 4} (hd : destination i = some d) (hk : regIndex d = .ok k) (v : Word) :
      (s.regs.set k v).get j = s.regs.get j :=
    get_set_other _ _ fun hjk => hother d hd (by rw [hjk, regIndex_ok.mp hk])
  obtain ⟨e, he, rfl⟩ := exec_next h
  cases he with
  | write v hd hk => exact kept hd hk v
  | compute r ovf _ hd hk => exact kept hd hk r
  | pop hk => exact kept rfl hk _
  | _ => rfl

/-- Settles O24: `emit` is the only effect that writes the trace. -/
theorem onlyOutExtendsTheTrace : Obligations.OnlyOutExtendsTheTrace := by
  unfold Obligations.OnlyOutExtendsTheTrace
  intro i s t h
  obtain ⟨e, he, rfl⟩ := exec_next h
  cases he with
  | @emit r j hj => exact .inr ⟨r, j, rfl, regIndex_ok.mp hj, rfl⟩
  | _ => exact .inl rfl

/-- An instruction that is no control transfer leaves `pc` to the cycle (10_state.md R23). -/
theorem exec_keeps_pc {i : Instr} {s t : State} (h : exec i s = .next t) (hi : isControlTransfer i = false) :
    t.pc = s.pc := by
  obtain ⟨e, he, rfl⟩ := exec_next h
  cases he with
  | stay => rfl
  | jump _ hjump => exact absurd (hi.symm.trans hjump) Bool.false_ne_true
  | call => exact absurd hi.symm Bool.false_ne_true
  | ret => exact absurd hi.symm Bool.false_ne_true
  | _ => rfl

/-- A step of a running engine that executes no control transfer and does not stop has advanced `pc` from inside the code
segment (41_execution_cycle.md R141, R146). -/
theorem step_advances_pc {i : Instr} {s t : State} (h : step s = .next t)
    (hdecode : decodeWord (s.mem.readWord s.pc.toNat) = .ok i) (hi : isControlTransfer i = false)
    (hrun : t.halted = false) : s.pc.toNat < codeEnd ∧ t.pc = s.pc + 4#32 := by
  obtain ⟨_, ⟨_, rfl⟩ | ⟨hpc, ⟨_, _, rfl⟩ | ⟨k, u, hk, hexec, rfl⟩⟩⟩ := step_next h
  · exact absurd hrun (by simp)
  · exact absurd hrun (by simp)
  · obtain rfl : i = k := by simpa [hdecode] using hk
    rw [advance_halted] at hrun
    rw [advance_same hrun (exec_keeps_pc hexec hi)]
    exact ⟨hpc, rfl⟩

/-- `w + 4` does not wrap where it stays below 2^32. -/
theorem add_four_toNat {w : Word} (h : w.toNat + 4 < 2 ^ 32) : (w + 4#32).toNat = w.toNat + 4 :=
  BitVec.toNat_add_of_lt h

/-- Settles O25: no effect but that of a control transfer writes `pc`, and the advance starts below the end of the code
segment, so it does not wrap. -/
theorem onlyControlTransfersWritePc : Obligations.OnlyControlTransfersWritePc := by
  unfold Obligations.OnlyControlTransfersWritePc
  refine ⟨fun i s t h hi => exec_keeps_pc h hi, fun i s t h hdecode hi hrun => ?_⟩
  obtain ⟨hpc, ht⟩ := step_advances_pc h hdecode hi hrun
  simp only [codeEnd] at hpc
  rw [ht, add_four_toNat (by omega)]
  omega

end Sys2Proof.Machine
end

section
/-! PROOFS. The machine invariant (10_state.md R26, R27, R31, R32; 47_stack.md R212): every effect an instruction can have
keeps it, so every step does, and so every run. -/

namespace Sys2Proof.Machine

/-! ### Every effect and every step -/

/-- The invariant speaks of memory, `sp`, `hp`, `halted` and `fault` alone. -/
theorem State.Inv.of_kept {s t : State} (h : s.Inv) (hmem : t.mem = s.mem) (hsp : t.sp = s.sp) (hhp : t.hp = s.hp)
    (hfault : t.fault ≠ none → t.halted = true) : t.Inv where
  memory := hmem ▸ h.memory
  spLow := hsp ▸ h.spLow
  spHigh := hsp ▸ h.spHigh
  spAligned := hsp ▸ h.spAligned
  heap := hhp.trans h.heap
  faultHalts := hfault

/-- A push accepted by the range check leaves `sp` on its grid (20_memory.md R58). -/
theorem State.Inv.pushed {s t : State} {v : Word} (h : s.Inv) (hp : pushOk s.sp = true)
    (hb : inBounds (s.sp - 4#32) = true) (hmem : t.mem = s.mem.writeWord (s.sp - 4#32).toNat v)
    (hsp : t.sp = s.sp - 4#32) (hhp : t.hp = s.hp) (hfault : t.fault ≠ none → t.halted = true) : t.Inv := by
  have hp := pushOk_iff.mp hp
  have hhigh := h.spHigh
  have haligned := h.spAligned
  simp only [stackBase, stackEnd] at hp hhigh
  have hnat : t.sp.toNat = s.sp.toNat - 4 := by rw [hsp, sub_four_toNat (by omega)]
  exact ⟨hmem ▸ wf_writeWord h.memory (inBounds_iff.mp hb) v, by simp only [stackBase]; omega,
    by simp only [stackEnd]; omega, by omega, hhp.trans h.heap, hfault⟩

/-- A pop accepted by the range check leaves `sp` on its grid (20_memory.md R58). -/
theorem State.Inv.popped {s t : State} (h : s.Inv) (hp : popOk s.sp = true) (hmem : t.mem = s.mem)
    (hsp : t.sp = s.sp + 4#32) (hhp : t.hp = s.hp) (hfault : t.fault ≠ none → t.halted = true) : t.Inv := by
  have hp := popOk_iff.mp hp
  have hlow := h.spLow
  have haligned := h.spAligned
  simp only [stackBase, stackEnd] at hp hlow
  have hnat : t.sp.toNat = s.sp.toNat + 4 := by rw [hsp, add_four_toNat (by omega)]
  exact ⟨hmem ▸ h.memory, by simp only [stackBase]; omega, by simp only [stackEnd]; omega, by omega,
    hhp.trans h.heap, hfault⟩

theorem raise_keeps_inv {s : State} (h : s.Inv) (f : RunFault) : (s.raise f).Inv :=
  h.of_kept rfl rfl rfl fun _ => rfl

theorem effect_keeps_inv {i : Instr} {s : State} {e : Effect} (he : Effect.Of s i e) (h : s.Inv) : (e.apply s).Inv := by
  cases he with
  | raise f => exact raise_keeps_inv h f
  | store _ _ hb =>
    exact ⟨wf_writeWord h.memory (inBounds_iff.mp hb) _, h.spLow, h.spHigh, h.spAligned, h.heap, h.faultHalts⟩
  | call _ hp hb => exact h.pushed hp hb rfl rfl rfl h.faultHalts
  | ret hp => exact h.popped hp rfl rfl rfl h.faultHalts
  | push _ hp hb => exact h.pushed hp hb rfl rfl rfl h.faultHalts
  | pop _ hp => exact h.popped hp rfl rfl rfl h.faultHalts
  | halt => exact h.of_kept rfl rfl rfl fun _ => rfl
  | _ => exact h.of_kept rfl rfl rfl h.faultHalts

theorem advance_keeps_inv {t : State} (pc0 : Word) (h : t.Inv) : (advance pc0 t).Inv :=
  h.of_kept (by simp) (by simp) (by simp) (by simpa using h.faultHalts)

/-- Settles O14: a step raises a fault of its own, or advances the state after an effect of its instruction. -/
theorem stepKeepsTheMachineInvariant : Obligations.StepKeepsTheMachineInvariant := by
  unfold Obligations.StepKeepsTheMachineInvariant
  intro s t hs h
  obtain ⟨_, ⟨_, rfl⟩ | ⟨_, ⟨_, _, rfl⟩ | ⟨i, u, _, hexec, rfl⟩⟩⟩ := step_next h
  · exact raise_keeps_inv hs _
  · exact raise_keeps_inv hs _
  · obtain ⟨e, he, rfl⟩ := exec_next hexec
    exact advance_keeps_inv s.pc (effect_keeps_inv he hs)

/-! ### Runs -/

/-- What every step keeps holds of every state a run reaches. -/
theorem reaches_induct {P : State → Prop} (hstep : ∀ s t, P s → step s = .next t → P t) {s t : State}
    (h : Reaches s t) (hs : P s) : P t := by
  induction h with
  | refl => exact hs
  | step first _ ih => exact ih (hstep _ _ hs first)

theorem step_keeps_hp_params {s t : State} (h : step s = .next t) : t.hp = s.hp ∧ t.params = s.params := by
  rcases step_preciseFrom s t h with ⟨f, rfl⟩ | hkept
  · exact ⟨rfl, rfl⟩
  · exact (unwritten_eq_iff.mp hkept).2

/-- Settles O26: a fault writes neither, nor does any instruction that completes. -/
theorem runsNeverChangeHpOrParameters : Obligations.RunsNeverChangeHpOrParameters := by
  unfold Obligations.RunsNeverChangeHpOrParameters
  intro s t h
  refine reaches_induct (P := fun u => u.hp = s.hp ∧ u.params = s.params) (fun u v hu hstep => ?_) h ⟨rfl, rfl⟩
  obtain ⟨hhp, hparams⟩ := step_keeps_hp_params hstep
  exact ⟨hhp.trans hu.1, hparams.trans hu.2⟩

theorem resetWith_inv (p : Params) (image : List Byte) : (State.resetWith p image).Inv where
  memory := wf_resetWith p image
  spLow := show stackBase ≤ (0x300#32 : Word).toNat by decide
  spHigh := show (0x300#32 : Word).toNat ≤ stackEnd by decide
  spAligned := show (0x300#32 : Word).toNat % 4 = 0 by decide
  heap := rfl
  faultHalts := fun h => absurd rfl h

/-- A program load writes the code segment alone (70_reset_and_hazards.md R263). -/
theorem loadCode_ok {bytes : List Byte} {s t : State} :
    loadCode bytes s = .ok t ↔
      bytes.length ≤ codeSize ∧ t = { s with mem := s.mem.writeBytes codeBase bytes } := by
  unfold loadCode
  by_cases hlen : bytes.length ≤ codeSize
  · rw [if_pos hlen]
    exact ⟨fun h => ⟨hlen, (Except.ok.inj h).symm⟩, fun h => congrArg Except.ok h.2.symm⟩
  · rw [if_neg hlen]
    exact ⟨(nomatch ·), fun h => absurd h.1 hlen⟩

theorem loadCode_keeps_inv {bytes : List Byte} {s t : State} (hs : s.Inv) (h : loadCode bytes s = .ok t) : t.Inv := by
  obtain ⟨hlen, rfl⟩ := loadCode_ok.mp h
  simp only [codeSize] at hlen
  exact ⟨wf_writeBytes hs.memory _ bytes (by simp only [codeBase, memSize]; omega), hs.spLow, hs.spHigh, hs.spAligned,
    hs.heap, hs.faultHalts⟩

/-- Settles O16: the invariant holds of the reset machine, the load and every step keep it; and no step writes the
parameters. -/
theorem everyLoadedRunKeepsTheStackRange : Obligations.EveryLoadedRunKeepsTheStackRange := by
  unfold Obligations.EveryLoadedRunKeepsTheStackRange
  intro p image bytes s t hload hrun
  have hs : s.Inv := loadCode_keeps_inv (resetWith_inv p image) hload
  have ht : t.Inv := reaches_induct stepKeepsTheMachineInvariant hrun hs
  have hparams : t.params = p := by
    obtain ⟨_, rfl⟩ := loadCode_ok.mp hload
    exact (runsNeverChangeHpOrParameters _ t hrun).2
  exact ⟨ht.spLow, ht.spHigh, ht.spAligned, ht.heap, ht.faultHalts, hparams⟩

end Sys2Proof.Machine
end

section
/-! PROOFS. Noninterference (10_state.md R27, R30, R32, R42): states that agree on their steering part have the same effect
at every step, and one effect writes alike to both. -/

namespace Sys2Proof.Machine

/-- From `s` to `t` and from `s'` to `t'` the same happens: the steering parts end equal, the same output is appended,
and the same fault is raised or none. -/
def MovesAlike (s s' t t' : State) : Prop :=
  t.steering = t'.steering ∧ (∃ emitted, t.out = s.out ++ emitted ∧ t'.out = s'.out ++ emitted) ∧
    ((t.fault = s.fault ∧ t'.fault = s'.fault) ∨ ∃ f, t.fault = some f ∧ t'.fault = some f)

/-- A move that appends nothing and raises nothing. -/
theorem movesAlike_silent {s s' t t' : State} (h : t.steering = t'.steering) (hout : t.out = s.out)
    (hout' : t'.out = s'.out) (hfault : t.fault = s.fault) (hfault' : t'.fault = s'.fault) : MovesAlike s s' t t' :=
  ⟨h, ⟨[], by simpa using hout, by simpa using hout'⟩, .inl ⟨hfault, hfault'⟩⟩

theorem effect_apply_steering {s s' : State} (h : s'.steering = s.steering) (e : Effect) :
    (e.apply s).steering = (e.apply s').steering := by
  obtain ⟨u, rfl⟩ := exists_withUnread_of_steering_eq h
  cases e <;> rfl

theorem effect_movesAlike {s s' : State} (h : s'.steering = s.steering) (e : Effect) :
    MovesAlike s s' (e.apply s) (e.apply s') := by
  have hend := effect_apply_steering h e
  cases e with
  | raise f => exact ⟨hend, ⟨[], by simp [Effect.apply], by simp [Effect.apply]⟩, .inr ⟨f, rfl, rfl⟩⟩
  | emit j =>
    have hregs : s'.regs = s.regs := congrArg Steering.regs h
    exact ⟨hend, ⟨[(j, s.regs.get j)], rfl, by simp [Effect.apply, hregs]⟩, .inl ⟨rfl, rfl⟩⟩
  | _ => exact movesAlike_silent hend rfl rfl rfl rfl

theorem advance_steering {t t' : State} (pc0 : Word) (h : t.steering = t'.steering) :
    (advance pc0 t).steering = (advance pc0 t').steering := by
  obtain ⟨u, rfl⟩ := exists_withUnread_of_steering_eq h.symm
  by_cases hmove : (!t.halted && t.pc == pc0) = true
  · rw [advance, advance, if_pos hmove, if_pos (by exact hmove)]
    rfl
  · rw [advance, advance, if_neg hmove, if_neg (by exact hmove)]
    rfl

theorem advance_movesAlike {s s' t t' : State} (pc0 : Word) (h : MovesAlike s s' t t') :
    MovesAlike s s' (advance pc0 t) (advance pc0 t') := by
  obtain ⟨hsteering, hout, hfault⟩ := h
  exact ⟨advance_steering pc0 hsteering, by simpa using hout, by simpa using hfault⟩

/-- Settles O17: fetch and decode read `pc` and memory alone, and the instruction has the same effect in both states. -/
theorem unreadStateNeverSteersTheEngine : Obligations.UnreadStateNeverSteersTheEngine := by
  unfold Obligations.UnreadStateNeverSteersTheEngine
  intro s s' t hs h
  show ∃ t', step s' = .next t' ∧ MovesAlike s s' t t'
  have hpc : s'.pc = s.pc := congrArg Steering.pc hs.symm
  have hmem : s'.mem = s.mem := congrArg Steering.mem hs.symm
  have hhalted : s'.halted = s.halted := congrArg Steering.halted hs.symm
  obtain ⟨hrun, hcases⟩ := step_next h
  rw [step_eq (hhalted.trans hrun), hpc, hmem]
  rcases hcases with ⟨hout, rfl⟩ | ⟨hin, ⟨e, hd, rfl⟩ | ⟨i, u, hd, hexec, rfl⟩⟩
  · rw [if_neg (Nat.not_lt.mpr hout)]
    exact ⟨_, rfl, effect_movesAlike hs.symm (.raise .outOfBounds)⟩
  · rw [if_pos hin, hd]
    exact ⟨_, rfl, effect_movesAlike hs.symm (.raise .invalidOpcode)⟩
  · rw [if_pos hin, hd]
    obtain ⟨e, _, he⟩ := exec_effect i s
    obtain rfl : e.apply s = u := by simpa [hexec] using (he s rfl).symm
    refine ⟨advance s.pc (e.apply s'), ?_, advance_movesAlike s.pc (effect_movesAlike hs.symm e)⟩
    simp only [executeStage, he s' hs.symm, hpc]

end Sys2Proof.Machine
end

section
/-! PROOFS. Memory (20_memory.md): the bounds and the bytes of a word access, which bytes an instruction can change, the
canonical form as one spelling of the byte array, and a STORE into the code segment. -/

namespace Sys2Proof.Machine

/-! ### Word accesses -/

theorem inBounds_eq_false_iff {addr : Word} : inBounds addr = false ↔ memSize < addr.toNat + 4 := by
  rw [← Bool.not_eq_true, inBounds_iff, Nat.not_le]

/-- Settles O27: a read in bounds answers the word of `readWord`, and one out of bounds fails. -/
theorem memReadIsBoundedLittleEndian : Obligations.MemReadIsBoundedLittleEndian := by
  unfold Obligations.MemReadIsBoundedLittleEndian
  exact fun _ _ => ⟨fun hin => memRead_ok.mpr ⟨inBounds_iff.mpr hin, rfl⟩,
    fun hout => memRead_error.mpr ⟨inBounds_eq_false_iff.mpr hout, rfl⟩⟩

/-- Settles O28: a write in bounds answers the memory of `writeWord`, whose bytes are known, and one out of bounds
fails. -/
theorem memWriteOverwritesFourBytes : Obligations.MemWriteOverwritesFourBytes := by
  unfold Obligations.MemWriteOverwritesFourBytes
  exact fun m addr v =>
    ⟨fun hin => ⟨_, memWrite_ok.mpr ⟨inBounds_iff.mpr hin, rfl⟩, holdsAfterStore_writeWord m addr.toNat v⟩,
      fun hout => memWrite_error.mpr ⟨inBounds_eq_false_iff.mpr hout, rfl⟩⟩

/-! ### The bytes an instruction can change -/

theorem storeAddress_store {s : State} {v a : Byte} {j : Fin 4} (ha : regIndex a = .ok j) :
    storeAddress s (.store v a) = some (s.regs.get j) := by
  simp [storeAddress, ha]

/-- Settles O22: three effects write memory, each one word, at the address its instruction stores to. -/
theorem onlyTheStoredWordChangesMemory : Obligations.OnlyTheStoredWordChangesMemory := by
  unfold Obligations.OnlyTheStoredWordChangesMemory
  intro i s t k h houtside
  obtain ⟨e, he, rfl⟩ := exec_next h
  cases he with
  | store _ ha => exact readByte_writeWord_other _ _ _ (houtside _ (storeAddress_store ha))
  | call => exact readByte_writeWord_other _ _ _ (houtside _ rfl)
  | push => exact readByte_writeWord_other _ _ _ (houtside _ rfl)
  | _ => rfl

/-! ### The canonical form -/

/-- A list with rising addresses holds at most one cell for an address, and that is the one found. -/
theorem findByte_of_mem {cells : List Host.Cell} (hsorted : cells.Pairwise fun c d => c.1 < d.1) {c : Host.Cell}
    (h : c ∈ cells) : findByte cells c.1 = c.2 := by
  induction cells with
  | nil => cases h
  | cons d rest ih =>
    obtain ⟨hhead, hrest⟩ := List.pairwise_cons.mp hsorted
    rcases List.mem_cons.mp h with rfl | hmem
    · simp [findByte]
    · rw [findByte, if_neg (hhead c hmem).ne, ih hrest hmem]

/-- What is found is listed, unless it is what an unlisted address reads as. -/
theorem mem_of_findByte {cells : List Host.Cell} {a : Nat} (h : findByte cells a ≠ unlistedByte) :
    (a, findByte cells a) ∈ cells := by
  induction cells with
  | nil => exact absurd rfl h
  | cons d rest ih =>
    by_cases hd : d.1 = a
    · simp [findByte, ← hd]
    · rw [findByte, if_neg hd] at h ⊢
      exact List.mem_cons_of_mem d (ih h)

/-- The cells of a canonical memory are the bytes it holds that no unlisted address would read as. -/
theorem mem_cells_iff {m : Memory} (h : m.wf) (c : Host.Cell) :
    c ∈ m.cells ↔ m.readByte c.1 = c.2 ∧ c.2 ≠ unlistedByte := by
  obtain ⟨hsorted, hcells⟩ := h
  constructor
  · exact fun hc => ⟨findByte_of_mem hsorted hc, (hcells c hc).2⟩
  · rintro ⟨hread, hlisted⟩
    have hmem : (c.1, m.readByte c.1) ∈ m.cells := mem_of_findByte (hread.trans_ne hlisted)
    rwa [hread] at hmem

/-- Settles O30: reading alike, the two lists have the same cells, and a list is determined by its cells and their
strictly rising order. -/
theorem canonicalMemoriesThatReadAlikeAreEqual : Obligations.CanonicalMemoriesThatReadAlikeAreEqual := by
  unfold Obligations.CanonicalMemoriesThatReadAlikeAreEqual
  rintro ⟨cells⟩ ⟨cells'⟩ h h' hread
  have hsame (c : Host.Cell) : c ∈ cells ↔ c ∈ cells' := by
    rw [mem_cells_iff h, mem_cells_iff h', hread]
  have : Std.Asymm fun c d : Host.Cell => c.1 < d.1 := ⟨fun _ _ => Nat.lt_asymm⟩
  exact congrArg Memory.mk (h.1.eq_of_mem_iff h'.1 hsame)

/-! ### A STORE into the code segment -/

/-- A STORE with valid operands and an acceptable address writes its word there and nothing else. -/
theorem exec_store_of_lt {s : State} {v a : Byte} (hv : v.toNat < 4) (ha : a.toNat < 4)
    (halign : alignmentOk s.params (s.regs.get ⟨a.toNat, ha⟩) = true)
    (hbounds : inBounds (s.regs.get ⟨a.toNat, ha⟩) = true) :
    exec (.store v a) s = .next
      { s with mem := s.mem.writeWord (s.regs.get ⟨a.toNat, ha⟩).toNat (s.regs.get ⟨v.toNat, hv⟩) } := by
  rw [exec_store, storeResult_ok.mpr ⟨_, _, regIndex_of_lt hv, regIndex_of_lt ha, halign, hbounds, rfl⟩, conclude_ok]

/-- Under `MISALIGNED_POLICY = Access` every address is acceptable (20_memory.md R56). -/
theorem alignmentOk_of_access {p : Params} (h : p.misalignedPolicy = .access) (addr : Word) :
    alignmentOk p addr = true := by
  rw [alignmentOk, h]

/-- A fetch in the code segment answers the word that memory holds there (41_execution_cycle.md R142). -/
theorem fetch_of_lt {s : State} {w : Word} (hpc : s.pc.toNat < codeEnd) (hread : s.mem.readWord s.pc.toNat = w) :
    fetch s = .ok w := by
  rw [fetch_eq, if_pos hpc, hread]

/-- A step of a running engine advances what the instruction at `pc` answers (41_execution_cycle.md R150). -/
theorem step_of_exec {s u : State} {i : Instr} (hrun : s.halted = false) (hpc : s.pc.toNat < codeEnd)
    (hdecode : decodeWord (s.mem.readWord s.pc.toNat) = .ok i) (hexec : exec i s = .next u) :
    step s = .next (advance s.pc u) := by
  rw [step_eq hrun, if_pos hpc, hdecode]
  simp only [executeStage, hexec]

/-- Settles O31: the STORE leaves `pc` and `halted`, so the step advances `pc` by 4, and the fetch reads the word just
written: that the STORE's own word may be the one written plays no part once it is decoded. -/
theorem storeIntoCodeIsSeenByTheNextFetch : Obligations.StoreIntoCodeIsSeenByTheNextFetch := by
  unfold Obligations.StoreIntoCodeIsSeenByTheNextFetch
  intro s v a hv ha hrun hpc hdecode haccess haddr
  have hbounds : inBounds (s.regs.get ⟨a.toNat, ha⟩) = true :=
    inBounds_iff.mpr (by simp only [memSize]; omega)
  have hexec := exec_store_of_lt hv ha (alignmentOk_of_access haccess _) hbounds
  have hstep := step_of_exec hrun hpc hdecode hexec
  exact ⟨_, hstep.trans (congrArg Host.Outcome.next (advance_same hrun rfl)), rfl, hrun,
    fetch_of_lt haddr (readWord_writeWord_same _ _ _)⟩

end Sys2Proof.Machine
end

section
/-! PROOFS. The encoding (30_encoding.md R80 to R95): packing and splitting a word are inverse to each other, the opcode
map reads an instruction back off its fields, and what it reads it reads through the mask of the used bits. -/

namespace Sys2Proof

/-! ### Packing and splitting -/

@[simp] theorem wordFields_packFields (f : Fields) : wordFields (packFields f) = f :=
  wordFields_append f.opcode f.op0 f.op1 f.op2

@[simp] theorem packFields_wordFields (w : Word) : packFields (wordFields w) = w :=
  wordOfBytes_wordByte w

theorem operandField_toNat (v : Int) : (Machine.operandField v).toNat = (v % 256).toNat :=
  BitVec.toNat_ofInt v

/-- Settles O2: splitting and packing are inverse in both orders, and a byte holds an integer modulo 256. -/
theorem packedFieldsReadBack : Obligations.PackedFieldsReadBack := by
  unfold Obligations.PackedFieldsReadBack
  exact ⟨wordFields_packFields, packFields_wordFields, operandField_toNat⟩

/-! ### Decoding an encoded instruction -/

/-- The opcode map reads every instruction back off its own fields, constructor by constructor. -/
theorem instrOfFields_fields (i : Instr) : instrOfFields i.fields = .ok i := by
  cases i <;> rfl

@[simp] theorem decodeWord_encode (i : Instr) : decodeWord (encode i) = .ok i := by
  rw [decodeWord, encode, wordFields_packFields, instrOfFields_fields]

/-- The bytes of a word, as memory holds them, decode as the word (20_memory.md R52). -/
theorem decodeBytes_wordBytes_append {w : Word} {i : Instr} (h : decodeWord w = .ok i) (rest : List Byte) :
    decodeBytes (wordBytes w ++ rest) = .ok (i, rest) := by
  simp only [wordBytes, List.cons_append, List.nil_append, decodeBytes_cons4, wordOfBytes_wordByte, h]

/-- Settles O1: the fields of the packed word are the instruction's, which the opcode map reads back, and the four bytes
of the word are put together to the word again. -/
theorem decodeReadsBackEveryEncodedInstr : Obligations.DecodeReadsBackEveryEncodedInstr := by
  unfold Obligations.DecodeReadsBackEveryEncodedInstr
  exact fun i rest => ⟨decodeWord_encode i, decodeBytes_wordBytes_append (decodeWord_encode i) rest⟩

/-! ### The used bits of a word -/

/-- Two splits and-ed field by field. -/
def Fields.and (f m : Fields) : Fields :=
  ⟨f.opcode &&& m.opcode, f.op0 &&& m.op0, f.op1 &&& m.op1, f.op2 &&& m.op2⟩

theorem wordFields_and (w m : Word) : wordFields (w &&& m) = (wordFields w).and (wordFields m) := by
  simp only [wordFields, Fields.and, BitVec.extractLsb'_and]

@[simp] theorem and_byte_ones (b : Byte) : b &&& 0xFF#8 = b := BitVec.and_allOnes

/-- The opcode byte is used under every opcode (30_encoding.md R94). -/
theorem usedMask_opcode (o : Byte) : (wordFields (usedMask o)).opcode = 0xFF#8 := by
  unfold usedMask
  split_ifs <;> rfl

theorem opcode_and_usedMask (w : Word) (o : Byte) :
    (wordFields (w &&& usedMask o)).opcode = (wordFields w).opcode := by
  rw [wordFields_and, Fields.and, usedMask_opcode, and_byte_ones]

/-- Under an unassigned opcode no bit is ignored. -/
theorem usedMask_of_unassigned {o : Byte} (h : 0x1A < o.toNat) : usedMask o = BitVec.allOnes 32 := by
  have hne (k : Byte) (hk : k.toNat ≤ 0x1A) : o ≠ k := by
    rintro rfl
    omega
  simp [usedMask, hne, h.not_ge]

/-! ### What the opcode map answers -/

/-- The opcodes above 0x1A are unassigned (30_encoding.md R85). -/
theorem instrOfFields_unassigned {f : Fields} (h : 0x1A < f.opcode.toNat) :
    instrOfFields f = .error (.unassignedOpcode f.opcode) := by
  unfold instrOfFields
  split
  case h_28 => rfl
  all_goals omega

/-- The instruction of an assigned opcode has the fields it was read from, with 0 in the ignored slots (30_encoding.md
R82, R84), opcode by opcode. -/
theorem instrOfFields_assigned {f : Fields} (h : f.opcode.toNat ≤ 0x1A) :
    ∃ i, instrOfFields f = .ok i ∧ i.fields = f.and (wordFields (usedMask f.opcode)) := by
  obtain ⟨o, a, b, c⟩ := f
  obtain ⟨n, hn, rfl⟩ : ∃ n ≤ 0x1A, o = BitVec.ofNat 8 n := ⟨o.toNat, h, by simp⟩
  interval_cases n <;>
  · refine ⟨_, rfl, ?_⟩
    simp [Instr.fields, Instr.opcode, Fields.and, wordFields, usedMask]

/-! ### What the decoder answers -/

/-- A word has an instruction exactly when its opcode byte is an assigned one (30_encoding.md R84, R85). -/
theorem decodeWord_isOk_iff (w : Word) : (∃ i, decodeWord w = .ok i) ↔ w.toNat / 2 ^ 24 ≤ 0x1A := by
  rw [← wordFields_opcode_toNat]
  constructor
  · rintro ⟨i, hi⟩
    by_contra! h
    rw [decodeWord, instrOfFields_unassigned h] at hi
    cases hi
  · intro h
    obtain ⟨i, hi, -⟩ := instrOfFields_assigned h
    exact ⟨i, hi⟩

/-- The encoding of a decoded word is the word without its ignored bits. -/
theorem encode_of_decodeWord {w : Word} {i : Instr} (h : decodeWord w = .ok i) :
    encode i = w &&& usedMask (wordFields w).opcode := by
  have hassigned := (decodeWord_isOk_iff w).mp ⟨i, h⟩
  rw [← wordFields_opcode_toNat] at hassigned
  obtain ⟨j, hj, hfields⟩ := instrOfFields_assigned hassigned
  obtain rfl : i = j := Except.ok.inj (h.symm.trans hj)
  rw [encode, hfields, ← wordFields_and, packFields_wordFields]

theorem opcode_of_decodeWord {w : Word} {i : Instr} (h : decodeWord w = .ok i) : i.opcode = (wordFields w).opcode := by
  rw [← fields_opcode, ← wordFields_packFields i.fields, ← encode, encode_of_decodeWord h, opcode_and_usedMask]

/-- The ignored bits can be cleared: an assigned word is then the encoding of its instruction, an unassigned one has
none (30_encoding.md R94). -/
theorem decodeWord_and_usedMask (w : Word) : decodeWord (w &&& usedMask (wordFields w).opcode) = decodeWord w := by
  by_cases h : ∃ i, decodeWord w = .ok i
  · obtain ⟨i, hi⟩ := h
    rw [← encode_of_decodeWord hi, decodeWord_encode, hi]
  · rw [decodeWord_isOk_iff, ← wordFields_opcode_toNat, not_le] at h
    rw [usedMask_of_unassigned h, BitVec.and_allOnes]

/-- Words that agree in the bits that the first one uses have the same opcode byte, so they use the same bits. -/
theorem decodeWord_congr {w w' : Word}
    (h : w &&& usedMask (wordFields w).opcode = w' &&& usedMask (wordFields w).opcode) :
    decodeWord w' = decodeWord w := by
  have hopcode : (wordFields w').opcode = (wordFields w).opcode := by
    rw [← opcode_and_usedMask w' (wordFields w).opcode, ← h, opcode_and_usedMask]
  rw [← decodeWord_and_usedMask w', hopcode, ← h, decodeWord_and_usedMask]

/-- Settles O3: the opcode byte decides whether there is an instruction, and decoding goes through the used bits, of
which the opcode byte is a part. -/
theorem decodingLooksOnlyAtUsedBits : Obligations.DecodingLooksOnlyAtUsedBits := by
  unfold Obligations.DecodingLooksOnlyAtUsedBits
  refine ⟨decodeWord_isOk_iff, fun w i h => ?_, fun _ _ => decodeWord_congr⟩
  rw [opcode_of_decodeWord h]
  exact encode_of_decodeWord h

end Sys2Proof
end

section
/-! PROOFS. The operand resolver (30_encoding.md R86 to R92): its mode table, its data read and its five modes. -/

namespace Sys2Proof.Machine

/-! ### The mode table -/

/-- The opcodes with Immediate modes in every slot are the range JUMP to CALL. -/
theorem jumpOrCall_iff (opcode : Byte) :
    (opcode = 0x12#8 ∨ opcode = 0x13#8 ∨ opcode = 0x14#8 ∨ opcode = 0x15#8) ↔
      0x12 ≤ opcode.toNat ∧ opcode.toNat ≤ 0x15 := by
  simp only [← BitVec.toNat_inj, BitVec.reduceToNat]
  omega

/-- Settles O38: the table's rows are LOAD, the range JUMP to CALL, and the rest. -/
theorem modeTableIsKeyedByOpcode : Obligations.ModeTableIsKeyedByOpcode := by
  unfold Obligations.ModeTableIsKeyedByOpcode
  intro opcode slot
  simp only [modeTable, jumpOrCall_iff]
  split
  · cases slot <;> rfl
  · split <;> rfl

/-! ### The data read -/

/-- Alignment is asked only under `MISALIGNED_POLICY = Fault` (20_memory.md R56). -/
theorem alignmentOk_iff {p : Params} {addr : Word} :
    alignmentOk p addr = true ↔ p.misalignedPolicy = .access ∨ addr.toNat % 4 = 0 := by
  unfold alignmentOk
  cases p.misalignedPolicy <;> simp

theorem dataRead_of_aligned {s : State} {addr : Word} (h : s.params.misalignedPolicy = .access ∨ addr.toNat % 4 = 0) :
    dataRead s addr = memRead s.mem addr := by
  rw [dataRead, if_pos (alignmentOk_iff.mpr h)]

theorem dataRead_of_misaligned {s : State} {addr : Word}
    (h : s.params.misalignedPolicy = .fault ∧ addr.toNat % 4 ≠ 0) : dataRead s addr = .error .outOfBounds := by
  obtain ⟨hpolicy, haddr⟩ := h
  rw [dataRead, if_neg]
  simp [alignmentOk_iff, hpolicy, haddr]

/-! ### The modes -/

theorem resolveRegister_of_lt (s : State) {op : Byte} (h : op.toNat < 4) :
    resolveRegister s op = .ok (s.regs.get ⟨op.toNat, h⟩) :=
  resolveRegister_ok.mpr ⟨_, regIndex_of_lt h, rfl⟩

theorem resolveRegister_of_ge (s : State) {op : Byte} (h : 4 ≤ op.toNat) :
    resolveRegister s op = .error .invalidRegister :=
  resolveRegister_error.mpr (regIndex_of_ge h)

theorem resolve_memory (s : State) (op : Byte) : resolve s op .memory = dataRead s (BitVec.ofNat 32 op.toNat) := by
  rw [← setWidth_eq_ofNat]
  rfl

/-- Indirect mode is a data read of what a data read answers (30_encoding.md R90). -/
theorem resolve_indirect (s : State) (op : Byte) :
    resolve s op .indirect = dataRead s (BitVec.ofNat 32 op.toNat) >>= dataRead s := by
  rw [← setWidth_eq_ofNat]
  show resolveIndirect s op = _
  unfold resolveIndirect
  cases dataRead s (op.setWidth 32) <;> rfl

theorem highNibble_toNat (op : Byte) : ((op.extractLsb' 4 4).setWidth 8).toNat = op.toNat / 16 := by
  have := op.isLt
  simp only [BitVec.toNat_setWidth, BitVec.extractLsb'_toNat, Nat.shiftRight_eq_div_pow]
  omega

theorem lowNibble_eq (op : Byte) : (op.extractLsb' 0 4).setWidth 32 = BitVec.ofNat 32 (op.toNat % 16) := by
  apply BitVec.eq_of_toNat_eq
  simp [BitVec.extractLsb'_toNat]

theorem resolve_indexed_of_lt (s : State) {op : Byte} (h : op.toNat / 16 < 4) :
    resolve s op .indexed = dataRead s (s.regs.get ⟨op.toNat / 16, h⟩ + BitVec.ofNat 32 (op.toNat % 16)) := by
  have hbase : regIndex ((op.extractLsb' 4 4).setWidth 8) = .ok ⟨op.toNat / 16, h⟩ :=
    regIndex_ok.mpr (highNibble_toNat op)
  rw [← lowNibble_eq]
  show resolveIndexed s op = _
  rw [resolveIndexed, hbase]

theorem resolve_indexed_of_ge (s : State) {op : Byte} (h : 4 ≤ op.toNat / 16) :
    resolve s op .indexed = .error .invalidRegister := by
  rw [← highNibble_toNat] at h
  show resolveIndexed s op = _
  rw [resolveIndexed, regIndex_of_ge h]

/-- Settles O39: the data read under both policies, and one equation per mode and outcome. -/
theorem resolverFollowsItsModes : Obligations.ResolverFollowsItsModes := by
  unfold Obligations.ResolverFollowsItsModes
  refine ⟨fun s addr => ⟨dataRead_of_aligned, dataRead_of_misaligned⟩, fun s op => ?_⟩
  refine ⟨congrArg Except.ok (setWidth_eq_ofNat op), resolveRegister_of_lt s, resolveRegister_of_ge s,
    resolve_memory s op, fun p hp => ?_, fun f hf => ?_, resolve_indexed_of_lt s, resolve_indexed_of_ge s⟩
  · rw [resolve_indirect, hp, ok_bind]
  · rw [resolve_indirect, hf, error_bind]

end Sys2Proof.Machine
end

section
/-! PROOFS. `InvalidRegister` (30_encoding.md R88, 60_exceptions.md R231): an instruction raises it exactly when one of
its register operands names no register, because what each result function can fault with is known. -/

namespace Sys2Proof.Machine

/-- What the statement says of the instruction `i` in the state `s`. -/
def ChecksRegisters (i : Instr) (s : State) : Prop :=
  (i.wellFormed = true → s.fault ≠ some .invalidRegister →
    ∀ t, exec i s = .next t → t.fault ≠ some .invalidRegister) ∧
  (i.wellFormed = false → (isComparison i = true → s.params.compareDispatch = .execute) →
    exec i s = .next (s.raise .invalidRegister))

/-- An instruction that concludes the result `r`, where `r` is that fault exactly for an ill-formed instruction and, where
it completes, leaves `fault` as it was. -/
theorem checksRegisters_of_conclude {i : Instr} {s : State} {r : Except RunFault State}
    (hexec : exec i s = conclude s r) (hinvalid : r = .error .invalidRegister ↔ i.wellFormed = false)
    (hkept : ∀ t, r = .ok t → t.unwritten = s.unwritten) : ChecksRegisters i s := by
  refine ⟨fun hwf hs t ht => ?_, fun hill _ => by rw [hexec, hinvalid.mpr hill, conclude_error]⟩
  rcases conclude_next.mp (hexec.symm.trans ht) with hok | ⟨f, hf, rfl⟩
  · rwa [(unwritten_eq_iff.mp (hkept t hok)).1]
  · rintro ⟨⟩
    simp [hinvalid.mp hf] at hwf

/-- An instruction without register operands that completes. -/
theorem checksRegisters_of_next {i : Instr} {s u : State} (hexec : exec i s = .next u) (hwf : i.wellFormed = true)
    (hkept : u.unwritten = s.unwritten) : ChecksRegisters i s :=
  checksRegisters_of_conclude (r := .ok u) hexec (by simp [hwf]) (by rintro _ ⟨⟩; exact hkept)

theorem namesRegister_eq_false_iff {op : Byte} : namesRegister op = false ↔ 4 ≤ op.toNat := by
  simp [namesRegister]

theorem namesRegister_and_eq_false_iff {a b : Byte} :
    (namesRegister a && namesRegister b) = false ↔ 4 ≤ a.toNat ∨ 4 ≤ b.toNat := by
  simp only [Bool.and_eq_false_iff, namesRegister_eq_false_iff]

/-! ### The register instructions -/

/-- The operation of a two-source instruction neither raises `InvalidRegister` nor writes `fault`: the check of the
operands is not its own. -/
def LeavesRegisterChecks (s : State) (f : State → Word → Word → Except RunFault (Word × State)) : Prop :=
  WritesFlagsAtMost s f ∧ ∀ x y, f s x y ≠ .error .invalidRegister

theorem direct_leavesRegisterChecks (s : State) (g : Word → Word → Word) : LeavesRegisterChecks s (direct g) :=
  ⟨direct_writesFlagsAtMost s g, fun _ _ => nofun⟩

theorem divide_leavesRegisterChecks (s : State) : LeavesRegisterChecks s divide :=
  ⟨divide_writesFlagsAtMost s, fun _ _ h => nomatch (divide_error.mp h).2⟩

theorem viaAlu_leavesRegisterChecks {s : State} {f : State → Word → Word → Word × State}
    (hf : ∀ x y, (f s x y).2 = { s with flags := (f s x y).2.flags }) : LeavesRegisterChecks s (viaAlu f) :=
  ⟨viaAlu_writesFlagsAtMost hf, fun _ _ => nofun⟩

theorem binaryResult_invalid_iff {s : State} {opcode : Byte}
    {f : State → Word → Word → Except RunFault (Word × State)} {d s1 s2 : Byte}
    (h1 : modeTable opcode .op1 = .register) (h2 : modeTable opcode .op2 = .register)
    (hf : ∀ x y, f s x y ≠ .error .invalidRegister) :
    binaryResult s opcode f d s1 s2 = .error .invalidRegister ↔
      4 ≤ s1.toNat ∨ 4 ≤ s2.toNat ∨ 4 ≤ d.toNat := by
  refine ⟨fun h => ?_, binaryResult_invalid h1 h2⟩
  rcases binaryResult_error h1 h2 h with ⟨hbad, _⟩ | ⟨_, _, _, _, _, _, hop⟩
  · exact hbad
  · exact absurd hop (hf _ _)

theorem unaryResult_error {s : State} {opcode : Byte} {f : Word → Word} {d s1 : Byte} {e : RunFault}
    (h1 : modeTable opcode .op1 = .register) :
    unaryResult s opcode f d s1 = .error e ↔ (4 ≤ s1.toNat ∨ 4 ≤ d.toNat) ∧ e = .invalidRegister := by
  rw [unaryResult, resolveSlot_register s s1 h1]
  by_cases h : s1.toNat < 4
  · simp [resolveRegister, regIndex_of_lt h, bind_error, regIndex_error, Nat.not_le.mpr h]
  · simp [resolveRegister, regIndex_of_ge (Nat.not_lt.mp h), Nat.not_lt.mp h, eq_comm (b := e)]

theorem checksRegisters_of_binaryResult {i : Instr} {s : State} {opcode : Byte}
    {f : State → Word → Word → Except RunFault (Word × State)} {d s1 s2 : Byte}
    (hexec : exec i s = conclude s (binaryResult s opcode f d s1 s2))
    (hwf : i.wellFormed = (namesRegister d && namesRegister s1 && namesRegister s2))
    (h1 : modeTable opcode .op1 = .register) (h2 : modeTable opcode .op2 = .register)
    (hf : LeavesRegisterChecks s f) : ChecksRegisters i s := by
  obtain ⟨hwrites, hfault⟩ := hf
  refine checksRegisters_of_conclude hexec ?_ fun t ht => ?_
  · rw [binaryResult_invalid_iff h1 h2 hfault, hwf]
    simp only [Bool.and_eq_false_iff, namesRegister_eq_false_iff]
    tauto
  · rw [binaryResult_writes_regs_flags h1 h2 hwrites ht]
    rfl

/-- A comparison that is not dispatchable raises `InvalidOpcode`, whatever its operands (44_compare.md R180). -/
theorem checksRegisters_of_compareExec {i : Instr} {s : State} {opcode : Byte}
    {f : State → Word → Word → Word × State} {d s1 s2 : Byte} (hexec : exec i s = compareExec s opcode f d s1 s2)
    (hcmp : isComparison i = true) (hwf : i.wellFormed = (namesRegister d && namesRegister s1 && namesRegister s2))
    (h1 : modeTable opcode .op1 = .register) (h2 : modeTable opcode .op2 = .register)
    (hf : ∀ x y, (f s x y).2 = { s with flags := (f s x y).2.flags }) : ChecksRegisters i s := by
  cases hdispatch : s.params.compareDispatch with
  | fault =>
    rw [compareExec_fault hdispatch] at hexec
    refine ⟨fun _ _ t ht => ?_, fun _ h => ?_⟩
    · cases hexec.symm.trans ht
      simp
    · cases hdispatch.symm.trans (h hcmp)
  | execute =>
    rw [compareExec_execute hdispatch] at hexec
    exact checksRegisters_of_binaryResult hexec hwf h1 h2 (viaAlu_leavesRegisterChecks hf)

theorem checksRegisters_not (s : State) (d a : Byte) : ChecksRegisters (.not d a) s := by
  have hmode : modeTable 0x07#8 .op1 = .register := rfl
  refine checksRegisters_of_conclude (exec_not s d a) ?_ fun t ht => ?_
  · simp only [unaryResult_error hmode, and_true, Instr.wellFormed, namesRegister_and_eq_false_iff, or_comm]
  · obtain ⟨_, _, _, _, rfl⟩ := (unaryResult_ok hmode).mp ht
    rfl

/-! ### Memory, the stack and the trace -/

theorem checksRegisters_load (s : State) (d imm : Byte) : ChecksRegisters (.load d imm) s :=
  checksRegisters_of_conclude (exec_load s d imm)
    (by simp [loadResult_error, Instr.wellFormed, namesRegister_eq_false_iff]) fun _ => loadResult_keeps_unwritten

theorem checksRegisters_store (s : State) (v a : Byte) : ChecksRegisters (.store v a) s :=
  checksRegisters_of_conclude (exec_store s v a)
    (by rw [storeResult_error, Instr.wellFormed, namesRegister_and_eq_false_iff]; simp)
    fun _ => storeResult_keeps_unwritten

theorem checksRegisters_call (s : State) (r : Byte) : ChecksRegisters (.call r) s :=
  checksRegisters_of_conclude (exec_call s r)
    (by simp [callResult_error, Instr.wellFormed, namesRegister_eq_false_iff]) fun _ => callResult_keeps_unwritten

theorem checksRegisters_ret (s : State) : ChecksRegisters .ret s :=
  checksRegisters_of_conclude (exec_ret s) (by simp [retResult_error, Instr.wellFormed])
    fun _ => retResult_keeps_unwritten

theorem checksRegisters_push (s : State) (r : Byte) : ChecksRegisters (.push r) s :=
  checksRegisters_of_conclude (exec_push s r)
    (by simp [pushResult_error, Instr.wellFormed, namesRegister_eq_false_iff]) fun _ => pushResult_keeps_unwritten

theorem checksRegisters_pop (s : State) (d : Byte) : ChecksRegisters (.pop d) s :=
  checksRegisters_of_conclude (exec_pop s d)
    (by simp [popResult_error, Instr.wellFormed, namesRegister_eq_false_iff]) fun _ => popResult_keeps_unwritten

theorem checksRegisters_out (s : State) (r : Byte) : ChecksRegisters (.out r) s :=
  checksRegisters_of_conclude (exec_out s r)
    (by simp [outResult_error, Instr.wellFormed, namesRegister_eq_false_iff]) fun _ => outResult_keeps_unwritten

/-! ### Every instruction -/

theorem checksRegisters (i : Instr) (s : State) : ChecksRegisters i s := by
  cases i with
  | add d a b =>
    exact checksRegisters_of_binaryResult (exec_add s d a b) rfl rfl rfl (viaAlu_leavesRegisterChecks fun _ _ => rfl)
  | sub d a b =>
    exact checksRegisters_of_binaryResult (exec_sub s d a b) rfl rfl rfl (viaAlu_leavesRegisterChecks fun _ _ => rfl)
  | mul d a b =>
    exact checksRegisters_of_binaryResult (exec_mul s d a b) rfl rfl rfl (direct_leavesRegisterChecks s _)
  | div d a b =>
    exact checksRegisters_of_binaryResult (exec_div s d a b) rfl rfl rfl (divide_leavesRegisterChecks s)
  | and d a b =>
    exact checksRegisters_of_binaryResult (exec_and s d a b) rfl rfl rfl (direct_leavesRegisterChecks s _)
  | or d a b =>
    exact checksRegisters_of_binaryResult (exec_or s d a b) rfl rfl rfl (direct_leavesRegisterChecks s _)
  | xor d a b =>
    exact checksRegisters_of_binaryResult (exec_xor s d a b) rfl rfl rfl (direct_leavesRegisterChecks s _)
  | not d a => exact checksRegisters_not s d a
  | shl d a b =>
    exact checksRegisters_of_binaryResult (exec_shl s d a b) rfl rfl rfl (direct_leavesRegisterChecks s _)
  | shr d a b =>
    exact checksRegisters_of_binaryResult (exec_shr s d a b) rfl rfl rfl (direct_leavesRegisterChecks s _)
  | eq d a b => exact checksRegisters_of_compareExec (exec_eq s d a b) rfl rfl rfl rfl fun _ _ => rfl
  | neq d a b => exact checksRegisters_of_compareExec (exec_neq s d a b) rfl rfl rfl rfl fun _ _ => rfl
  | gt d a b => exact checksRegisters_of_compareExec (exec_gt s d a b) rfl rfl rfl rfl fun _ _ => rfl
  | lt d a b => exact checksRegisters_of_compareExec (exec_lt s d a b) rfl rfl rfl rfl fun _ _ => rfl
  | ge d a b => exact checksRegisters_of_compareExec (exec_ge s d a b) rfl rfl rfl rfl fun _ _ => rfl
  | le d a b => exact checksRegisters_of_compareExec (exec_le s d a b) rfl rfl rfl rfl fun _ _ => rfl
  | load d imm => exact checksRegisters_load s d imm
  | store v a => exact checksRegisters_store s v a
  | jump tgt => exact checksRegisters_of_next (exec_jump s tgt) rfl rfl
  | jz tgt => exact checksRegisters_of_next (exec_jz s tgt) rfl (by split <;> rfl)
  | jnz tgt => exact checksRegisters_of_next (exec_jnz s tgt) rfl (by split <;> rfl)
  | call r => exact checksRegisters_call s r
  | ret => exact checksRegisters_ret s
  | push r => exact checksRegisters_push s r
  | pop d => exact checksRegisters_pop s d
  | halt => exact checksRegisters_of_next (exec_halt s) rfl rfl
  | out r => exact checksRegisters_out s r

/-- Settles O13: every instruction checks its register operands before it can raise another fault or write anything, and
only they raise `InvalidRegister`. -/
theorem invalidRegisterExactlyWhenIllFormed : Obligations.InvalidRegisterExactlyWhenIllFormed := by
  unfold Obligations.InvalidRegisterExactlyWhenIllFormed
  exact checksRegisters

end Sys2Proof.Machine
end

section
/-! PROOFS. The ALU (40_alu.md R110 to R120): every function but a division by zero answers its result with all three
flags. The model's two overflow rules are core Lean's signed-overflow predicates and its division is core Lean's `sdiv`, so
what the library says of those holds of the ALU. -/

namespace Sys2Proof.Machine

/-- The pair of a result and its flags, with `Z`, `N` and `O` written out as the statements do (40_alu.md R110). -/
theorem withFlags_eq_record (s : State) (r : Word) (ovf : Bool) :
    withFlags s r ovf = (r, { s with flags := { z := decide (r = 0#32), n := r.msb, o := ovf } }) := rfl

/-! ### Addition and subtraction -/

theorem addOverflow_eq_saddOverflow (a b : Word) : addOverflow a b = a.saddOverflow b := by
  rw [BitVec.saddOverflow_eq, addOverflow]
  cases a.msb <;> cases b.msb <;> simp

theorem subOverflow_eq_ssubOverflow (a b : Word) : subOverflow a b = a.ssubOverflow b :=
  (BitVec.ssubOverflow_eq a b).symm

/-- The sign rule of a sum (40_alu.md R112). -/
theorem addOverflow_iff_sign (a b : Word) : addOverflow a b = true ↔ a.msb = b.msb ∧ (a + b).msb ≠ a.msb := by
  simp [addOverflow_eq_saddOverflow, BitVec.saddOverflow_eq]

theorem addOverflow_iff_range (a b : Word) :
    addOverflow a b = true ↔ a.toInt + b.toInt < -2 ^ 31 ∨ 2 ^ 31 - 1 < a.toInt + b.toInt := by
  simp only [addOverflow_eq_saddOverflow, BitVec.saddOverflow, Bool.or_eq_true, decide_eq_true_eq]
  omega

theorem subOverflow_iff_range (a b : Word) :
    subOverflow a b = true ↔ a.toInt - b.toInt < -2 ^ 31 ∨ 2 ^ 31 - 1 < a.toInt - b.toInt := by
  simp only [subOverflow_eq_ssubOverflow, BitVec.ssubOverflow, Bool.or_eq_true, decide_eq_true_eq]
  omega

/-- Settles O35: the bit rules for `O` are the overflow predicates of the exact signed range. -/
theorem aluOverflowIsTheExactSignedRange : Obligations.AluOverflowIsTheExactSignedRange := by
  unfold Obligations.AluOverflowIsTheExactSignedRange
  intro s a b
  constructor
  · exact ⟨addOverflow a b, withFlags_eq_record s _ _, addOverflow_iff_range a b, addOverflow_iff_sign a b⟩
  · exact ⟨subOverflow a b, withFlags_eq_record s _ _, subOverflow_iff_range a b⟩

/-! ### Multiplication and the shifts -/

/-- The low word of the signed product is the product modulo 2^32 (40_alu.md R115). -/
theorem ofInt_toInt_mul (a b : Word) : BitVec.ofInt 32 (a.toInt * b.toInt) = a * b := by
  rw [BitVec.ofInt_mul, BitVec.ofInt_toInt, BitVec.ofInt_toInt]

/-- The model's test for a large distance changes no value (40_alu.md R120). -/
theorem shiftLeft_eq (a : Word) (distance : Nat) : shiftLeft a distance = a <<< distance := by
  unfold shiftLeft
  split
  next hlarge => exact (BitVec.shiftLeft_eq_zero hlarge).symm
  next => rfl

/-- Every distance from 32 on leaves 32 copies of bit 31, so the cut at 32 changes no value (40_alu.md R119, R120). -/
theorem shiftRightArith_eq (a : Word) (distance : Nat) : shiftRightArith a distance = a.sshiftRight distance := by
  unfold shiftRightArith
  rcases Nat.le_total distance 32 with hsmall | hlarge
  · rw [Nat.min_eq_left hsmall]
  · rw [Nat.min_eq_right hlarge]
    ext i hi
    have hpast : ¬ 32 + i < 32 ∧ ¬ distance + i < 32 := by omega
    simp only [BitVec.getElem_sshiftRight, hpast, dite_false]

theorem aluMul_eq (s : State) (a b : Word) : aluMul s a b = withFlags s (a * b) false := by
  rw [aluMul, ofInt_toInt_mul]

theorem aluShl_eq (s : State) (a b : Word) :
    aluShl s a b = withFlags s (a <<< shiftDistance s.params b) false := by
  rw [aluShl, shiftLeft_eq]

theorem aluShr_eq (s : State) (a b : Word) :
    aluShr s a b = withFlags s (a.sshiftRight (shiftDistance s.params b)) false := by
  rw [aluShr, shiftRightArith_eq]

theorem shiftDistance_mask5 {p : Params} (h : p.shiftAmount = .mask5) (b : Word) :
    shiftDistance p b = b.toNat % 32 := by
  rw [shiftDistance, h]

theorem shiftDistance_saturate {p : Params} (h : p.shiftAmount = .saturate) (b : Word) :
    shiftDistance p b = b.toNat := by
  rw [shiftDistance, h]

/-- Settles O36: each of the seven functions is its value with flags written and `O` cleared; only the product and the
two shifts need an argument for the value. -/
theorem uncalledAluFunctionsSetFlagsAndClearO : Obligations.UncalledAluFunctionsSetFlagsAndClearO := by
  unfold Obligations.UncalledAluFunctionsSetFlagsAndClearO
  intro s a b
  refine ⟨?_, fun h => shiftDistance_mask5 h b, fun h => shiftDistance_saturate h b⟩
  simp only [List.forall_mem_cons]
  exact ⟨aluMul_eq s a b, rfl, rfl, rfl, rfl, aluShl_eq s a b, aluShr_eq s a b, List.forall_mem_nil _⟩

/-! ### Division -/

/-- The model's quotient is core Lean's signed division, which rounds toward zero (40_alu.md R116). -/
theorem ofInt_tdiv_eq_sdiv (a b : Word) : BitVec.ofInt 32 (a.toInt.tdiv b.toInt) = a.sdiv b :=
  BitVec.eq_of_toInt_eq (by rw [BitVec.toInt_ofInt, BitVec.toInt_sdiv])

theorem aluDiv_zero (s : State) (a : Word) : aluDiv s a 0#32 = (0#32, s.raise .divideByZero) := if_pos rfl

theorem aluDiv_of_ne_zero (s : State) (a : Word) {b : Word} (h : b ≠ 0#32) :
    aluDiv s a b = withFlags s (a.sdiv b) false := by
  rw [aluDiv, if_neg h, ofInt_tdiv_eq_sdiv]

/-- The quotient is exact but for the one pair whose quotient, 2^31, is no signed word (40_alu.md R116). -/
theorem sdiv_toInt_or_wraps (a b : Word) :
    (a.sdiv b).toInt = a.toInt.tdiv b.toInt ∨
      (a = 0x80000000#32 ∧ b = 0xFFFFFFFF#32 ∧ a.sdiv b = 0x80000000#32) := by
  by_cases hwraps : a = 0x80000000#32 ∧ b = 0xFFFFFFFF#32
  · obtain ⟨rfl, rfl⟩ := hwraps
    exact .inr ⟨rfl, rfl, by decide⟩
  · exact .inl (BitVec.toInt_sdiv_of_ne_or_ne a b (not_and_or.mp hwraps))

/-- Settles O37: a zero divisor only raises the fault, and any other quotient is `sdiv`'s. -/
theorem aluDivTruncatesAndHaltsOnZero : Obligations.AluDivTruncatesAndHaltsOnZero := by
  unfold Obligations.AluDivTruncatesAndHaltsOnZero
  intro s a b
  constructor
  · rintro rfl
    exact aluDiv_zero s a
  · intro hb
    exact ⟨a.sdiv b, aluDiv_of_ne_zero s a hb, sdiv_toInt_or_wraps a b⟩

end Sys2Proof.Machine
end

section
/-! PROOFS. The execution cycle (41_execution_cycle.md R140 to R147): when a step exists, the fetch check, the decoded
instruction and the advance of `pc`, which a control transfer to its own address does not escape. -/

namespace Sys2Proof.Machine

/-! ### The advance -/

/-- Settles O10: the three cases of the comparison. -/
theorem advanceComparesPcValues : Obligations.AdvanceComparesPcValues := by
  unfold Obligations.AdvanceComparesPcValues
  exact fun _ _ => ⟨advance_same, fun _ => advance_moved, advance_of_halted⟩

/-- The three cases of the comparison as one equation (41_execution_cycle.md R145, R146). -/
theorem advance_eq_ite (pc0 : Word) (t : State) :
    advance pc0 t = if t.halted = false ∧ t.pc = pc0 then { t with pc := pc0 + 4#32 } else t := by
  split
  next h => exact advance_same h.1 h.2
  next h =>
    by_cases hpc : t.pc = pc0
    · exact advance_of_halted (by simpa [hpc] using h)
    · exact advance_moved hpc

/-! ### When a step exists, and the fetch check -/

theorem exec_answers (i : Instr) (s : State) : ∃ t, exec i s = .next t := by
  obtain ⟨e, _, hexec⟩ := exec_effect i s
  exact ⟨e.apply s, hexec s rfl⟩

/-- A `pc` outside the code segment faults before anything is fetched (41_execution_cycle.md R141). -/
theorem step_of_pc_outside {s : State} (hrun : s.halted = false) (hpc : codeEnd ≤ s.pc.toNat) :
    step s = .next (s.raise .outOfBounds) := by
  rw [step_eq hrun, if_neg (Nat.not_lt.mpr hpc)]

/-- A word that is no instruction faults (41_execution_cycle.md R143). -/
theorem step_of_decode_error {s : State} {e : DecodeError} (hrun : s.halted = false) (hpc : s.pc.toNat < codeEnd)
    (hdecode : decodeWord (s.mem.readWord s.pc.toNat) = .error e) : step s = .next (s.raise .invalidOpcode) := by
  rw [step_eq hrun, if_pos hpc, hdecode]

/-- Settles O7: a running engine faults at the fetch, faults at the decoder, or executes an instruction, and every
instruction answers a next state. -/
theorem stepExistsExactlyWhenRunning : Obligations.StepExistsExactlyWhenRunning := by
  unfold Obligations.StepExistsExactlyWhenRunning
  refine fun s => ⟨step_of_halted, fun hrun => ?_⟩
  rcases Nat.lt_or_ge s.pc.toNat codeEnd with hin | hout
  · cases hdecode : decodeWord (s.mem.readWord s.pc.toNat) with
    | error e => exact ⟨_, step_of_decode_error hrun hin hdecode⟩
    | ok i =>
      obtain ⟨u, hexec⟩ := exec_answers i s
      exact ⟨_, step_of_exec hrun hin hdecode hexec⟩
  · exact ⟨_, step_of_pc_outside hrun hout⟩

/-- Settles O8: the check is on `pc` alone, and the word fetched is that of the four bytes there, whatever the
alignment. -/
theorem fetchChecksOnlyTheCodeSegment : Obligations.FetchChecksOnlyTheCodeSegment := by
  unfold Obligations.FetchChecksOnlyTheCodeSegment
  exact fun s => ⟨step_of_pc_outside, fun hpc => fetch_of_lt hpc rfl⟩

/-! ### The decoded instruction -/

/-- Four bytes that decode without a tail are a word that decodes (30_encoding.md R83). -/
theorem decodeWord_of_decodeBytes {b0 b1 b2 b3 : Byte} {i : Instr} (h : decodeBytes [b0, b1, b2, b3] = .ok (i, [])) :
    decodeWord (wordOfBytes b0 b1 b2 b3) = .ok i := by
  rw [decodeBytes_cons4] at h
  cases hdecode : decodeWord (wordOfBytes b0 b1 b2 b3) with
  | error e => simp [hdecode] at h
  | ok k => simpa [hdecode] using h

/-- Settles O5: the four bytes at `pc` are the word the step decodes, and the step advances what `exec` answers. -/
theorem stepRunsTheDecodedInstr : Obligations.StepRunsTheDecodedInstr := by
  unfold Obligations.StepRunsTheDecodedInstr
  intro s t i hrun hpc hbytes hexec
  rw [step_of_exec hrun hpc (decodeWord_of_decodeBytes hbytes) hexec, advance_eq_ite]

/-! ### A control transfer to its own address -/

/-- An instruction that ends at its own address, however it got there, continues at `pc0 + 4`
(41_execution_cycle.md R146, R147). -/
theorem step_falls_through {s u : State} {i : Instr} (hrun : s.halted = false) (hpc : s.pc.toNat < codeEnd)
    (hdecode : decodeWord (s.mem.readWord s.pc.toNat) = .ok i) (hexec : exec i s = .next u) (hu : u.halted = false)
    (hown : u.pc = s.pc) : step s = .next { u with pc := s.pc + 4#32 } := by
  rw [step_of_exec hrun hpc hdecode hexec, advance_same hu hown]

/-- A jump taken, under any of the three opcodes, writes its literal target (46_control_transfer.md R200 to R202). -/
theorem exec_jump_taken {s : State} {i : Instr} {tgt : Byte}
    (h : i = .jump tgt ∨ (i = .jz tgt ∧ s.flags.z = true) ∨ (i = .jnz tgt ∧ s.flags.z = false)) :
    exec i s = .next { s with pc := tgt.setWidth 32 } := by
  rcases h with rfl | ⟨rfl, hz⟩ | ⟨rfl, hz⟩
  · exact exec_jump s tgt
  · rw [exec_jz, if_pos hz]
  · rw [exec_jnz, if_neg (by simp [hz])]

/-- A CALL that completes pushes its own address and goes to its register's value (46_control_transfer.md R203). -/
theorem exec_call_of_lt {s : State} {r : Byte} (hr : r.toNat < 4) (hlo : 0x204 ≤ s.sp.toNat) (hhi : s.sp.toNat ≤ 0x400) :
    exec (.call r) s = .next
      { s with
        pc := s.regs.get ⟨r.toNat, hr⟩
        sp := s.sp - 4#32
        mem := s.mem.writeWord (s.sp - 4#32).toNat s.pc } := by
  have hb : inBounds (s.sp - 4#32) = true := inBounds_iff.mpr (by rw [sub_four_toNat (by omega), memSize]; omega)
  rw [exec_call, callResult_ok.mpr ⟨_, regIndex_of_lt hr, pushOk_iff.mpr hlo, hb, rfl⟩, conclude_ok]

/-- Settles O11: the jumps, CALL and RET each answer a running state whose `pc` equals `pc0`, which falls through; CALL's
push and RET's pop stand in the state they answer. -/
theorem transferToOwnAddressFallsThrough : Obligations.TransferToOwnAddressFallsThrough := by
  unfold Obligations.TransferToOwnAddressFallsThrough
  intro s i hrun hpc hdecode
  refine ⟨fun tgt htaken hown => ?jump, fun r hr hcall hown hlo hhi => ?call, fun hret hhi hown => ?ret⟩
  case jump =>
    have htgt : tgt.setWidth 32 = s.pc := by rw [setWidth_eq_ofNat, hown, BitVec.ofNat_toNat, BitVec.setWidth_eq]
    exact (step_falls_through hrun hpc hdecode (exec_jump_taken htaken) hrun htgt :)
  case call =>
    subst hcall
    refine ⟨_, step_falls_through hrun hpc hdecode (exec_call_of_lt hr hlo hhi) hrun hown, ?_⟩
    rw [← sub_four_toNat (show 4 ≤ s.sp.toNat by omega)]
    exact holdsAfterStore_writeWord s.mem _ s.pc
  case ret =>
    subst hret
    exact step_falls_through hrun hpc hdecode (exec_ret_of_le hhi) hrun hown

end Sys2Proof.Machine
end

section
/-! PROOFS. Arithmetic (42_arithmetic.md R160 to R163): what an instruction with two register sources does is said once
for each answer of its operation; an instruction then needs the answer alone. The words of O4 are here too. -/

namespace Sys2Proof.Machine

/-! ### What a two-source instruction does, by the answer of its operation -/

section BinaryResult

variable {i : Instr} {s : State} {opcode d a b : Byte} {f : State → Word → Word → Except RunFault (Word × State)}
  (hexec : exec i s = conclude s (binaryResult s opcode f d a b))
  (h1 : modeTable opcode .op1 = .register) (h2 : modeTable opcode .op2 = .register)

include hexec h1 h2

/-- An operand that names no register faults before the operation runs (30_encoding.md R88, 60_exceptions.md R234). -/
theorem exec_of_binaryResult_invalid (h : 4 ≤ a.toNat ∨ 4 ≤ b.toNat ∨ 4 ≤ d.toNat) :
    exec i s = .next (s.raise .invalidRegister) := by
  rw [hexec, binaryResult_invalid h1 h2 h, conclude_error]

theorem exec_of_operation_error (hd : d.toNat < 4) (ha : a.toNat < 4) (hb : b.toNat < 4) {e : RunFault}
    (hf : f s (s.regs.get ⟨a.toNat, ha⟩) (s.regs.get ⟨b.toNat, hb⟩) = .error e) : exec i s = .next (s.raise e) := by
  rw [hexec, binaryResult_of_lt h1 h2 hd ha hb, hf, conclude_error]

theorem exec_of_operation_ok (hd : d.toNat < 4) (ha : a.toNat < 4) (hb : b.toNat < 4) {r : Word} {u : State}
    (hf : f s (s.regs.get ⟨a.toNat, ha⟩) (s.regs.get ⟨b.toNat, hb⟩) = .ok (r, u)) :
    exec i s = .next (u.setReg ⟨d.toNat, hd⟩ r) := by
  rw [hexec, binaryResult_of_lt h1 h2 hd ha hb, hf, conclude_ok]

end BinaryResult

/-! ### Sum and difference -/

/-- `N` is the sign of the result (40_alu.md R110). -/
theorem flagsOf_eq_sign (r : Word) (ovf : Bool) :
    flagsOf r ovf = { z := decide (r = 0#32), n := decide (r.toInt < 0), o := ovf } := by
  rw [flagsOf, BitVec.msb_eq_toInt]

/-- An integer is changed by the wrap to a signed word exactly when it is outside the signed range. -/
theorem bmod_word_ne_iff (z : Int) : z ≠ z.bmod (2 ^ 32) ↔ z < -2 ^ 31 ∨ 2 ^ 31 - 1 < z := by
  rw [Int.bmod_def]
  omega

/-- The sign rule of a sum holds exactly when the word is not the exact sum (40_alu.md R112). -/
theorem addOverflow_eq_inexact (x y : Word) : addOverflow x y = decide (x.toInt + y.toInt ≠ (x + y).toInt) := by
  rw [Bool.eq_iff_iff, decide_eq_true_iff, BitVec.toInt_add, bmod_word_ne_iff, addOverflow_iff_range]

/-- The same for a difference (40_alu.md R114). -/
theorem subOverflow_eq_inexact (x y : Word) : subOverflow x y = decide (x.toInt - y.toInt ≠ (x - y).toInt) := by
  rw [Bool.eq_iff_iff, decide_eq_true_iff, BitVec.toInt_sub, bmod_word_ne_iff, subOverflow_iff_range]

/-- Settles O40: the result is `aluAdd`'s, whose flags are the sign and the exactness of the sum. -/
theorem addWritesTheSumAndAllFlags : Obligations.AddWritesTheSumAndAllFlags := by
  unfold Obligations.AddWritesTheSumAndAllFlags
  refine fun s d a b => ⟨decodeWord_append _ d a b, fun hd ha hb => ?_,
    exec_of_binaryResult_invalid (exec_add s d a b) rfl rfl⟩
  simp only [← addOverflow_eq_inexact, ← flagsOf_eq_sign]
  exact exec_add_of_lt hd ha hb

/-- Settles O41: the same with `aluSub` and the difference. -/
theorem subWritesTheDifferenceAndAllFlags : Obligations.SubWritesTheDifferenceAndAllFlags := by
  unfold Obligations.SubWritesTheDifferenceAndAllFlags
  refine fun s d a b => ⟨decodeWord_append _ d a b, fun hd ha hb => ?_,
    exec_of_binaryResult_invalid (exec_sub s d a b) rfl rfl⟩
  simp only [← subOverflow_eq_inexact, ← flagsOf_eq_sign]
  exact exec_of_operation_ok (exec_sub s d a b) rfl rfl hd ha hb rfl

/-! ### Product and quotient -/

/-- A product of words is congruent to the product of their signed values (42_arithmetic.md R162). -/
theorem toInt_mul_sub_emod (x y : Word) : ((x * y).toInt - x.toInt * y.toInt) % 2 ^ 32 = 0 := by
  rw [BitVec.toInt_mul]
  exact Int.emod_eq_zero_of_dvd Int.dvd_bmod_sub_self

/-- Settles O42: MUL writes core Lean's product of the two words, which is the unsigned product and the signed product
modulo 2^32. -/
theorem mulKeepsTheLowWordOfTheProduct : Obligations.MulKeepsTheLowWordOfTheProduct := by
  unfold Obligations.MulKeepsTheLowWordOfTheProduct
  refine fun s d a b => ⟨decodeWord_append _ d a b, fun hd ha hb => ?_,
    exec_of_binaryResult_invalid (exec_mul s d a b) rfl rfl⟩
  exact ⟨_, BitVec.toNat_mul _ _, toInt_mul_sub_emod _ _, exec_of_operation_ok (exec_mul s d a b) rfl rfl hd ha hb rfl⟩

/-- The engine's own division is core Lean's unsigned division (42_arithmetic.md R163). -/
theorem divide_of_ne_zero (s : State) (x : Word) {y : Word} (hy : y ≠ 0#32) : divide s x y = .ok (x / y, s) :=
  divide_ok.mpr ⟨hy, BitVec.udiv_def, rfl⟩

/-- The quotient is rounded down: it is the largest whose product with the divisor does not pass the dividend. -/
theorem udiv_rounds_down (x : Word) {y : Word} (hy : y ≠ 0#32) :
    (x / y).toNat * y.toNat ≤ x.toNat ∧ x.toNat < ((x / y).toNat + 1) * y.toNat := by
  have hpos : 0 < y.toNat := Nat.pos_of_ne_zero (BitVec.toNat_ne.mp hy)
  rw [BitVec.toNat_udiv, Nat.mul_comm (_ + 1)]
  exact ⟨Nat.div_mul_le_self _ _, Nat.lt_mul_div_succ _ hpos⟩

/-- Settles O43: the divisor decides between the quotient and the fault, and the register checks come before either. -/
theorem divIsUnsignedAndFaultsOnZero : Obligations.DivIsUnsignedAndFaultsOnZero := by
  unfold Obligations.DivIsUnsignedAndFaultsOnZero
  refine fun s d a b => ⟨decodeWord_append _ d a b, fun hd ha hb => ⟨fun hy => ?quotient, fun hy => ?zero⟩,
    exec_of_binaryResult_invalid (exec_div s d a b) rfl rfl⟩
  case quotient =>
    obtain ⟨hle, hlt⟩ := udiv_rounds_down (s.regs.get ⟨a.toNat, ha⟩) hy
    exact ⟨_, hle, hlt, exec_of_operation_ok (exec_div s d a b) rfl rfl hd ha hb (divide_of_ne_zero s _ hy)⟩
  case zero =>
    exact exec_of_operation_error (exec_div s d a b) rfl rfl hd ha hb (divide_error.mpr ⟨hy, rfl⟩)

/-! ### Words written out -/

/-- Settles O4: twelve of the words are what the encoder writes for their instructions, so they read back; the HALT with
its ignored slots filled and the unassigned opcode are read off the opcode map. -/
theorem writtenOutWordsDecode : Obligations.WrittenOutWordsDecode := by
  unfold Obligations.WrittenOutWordsDecode
  exact ⟨decodeWord_encode (.add 0 1 2), decodeWord_encode (.div 1 0 2), decodeWord_encode (.not 0 1),
    decodeWord_encode (.shl 1 1 2), decodeWord_encode (.eq 2 0 1), decodeWord_encode (.load 2 255),
    decodeWord_encode (.store 3 1), decodeWord_encode (.jump 65), decodeWord_encode (.call 3), decodeWord_encode .ret,
    decodeWord_encode (.pop 1), decodeWord_append 0x19 0xFF 0xFF 0xFF, decodeWord_encode (.out 2),
    decodeWord_append 0x1B 0 0 0⟩

end Sys2Proof.Machine
end

section
/-! PROOFS. Logic and shifts (43_logic_shift.md R170 to R175): the three bitwise instructions are one argument, and the two
shifts are one argument over the value of the shift at every distance. -/

namespace Sys2Proof.Machine

/-! ### The value of a shift -/

/-- A left shift is a multiplication modulo 2^32, at a large distance too (43_logic_shift.md R174). -/
theorem shiftLeft_toNat (a : Word) (distance : Nat) : (shiftLeft a distance).toNat = a.toNat * 2 ^ distance % 2 ^ 32 := by
  rw [shiftLeft_eq, BitVec.toNat_shiftLeft, Nat.shiftLeft_eq]

theorem shiftLeft_of_ge (a : Word) {distance : Nat} (h : 32 ≤ distance) : shiftLeft a distance = 0#32 := if_pos h

/-- The model's test for a large distance changes no value (40_alu.md R120). -/
theorem shiftRight_eq (a : Word) (distance : Nat) : shiftRight a distance = a >>> distance := by
  unfold shiftRight
  split
  next hlarge => exact (BitVec.ushiftRight_eq_zero hlarge).symm
  next => rfl

/-- A logical right shift is an unsigned division, rounded down (43_logic_shift.md R175). -/
theorem shiftRight_toNat (a : Word) (distance : Nat) : (shiftRight a distance).toNat = a.toNat / 2 ^ distance := by
  rw [shiftRight_eq, BitVec.toNat_ushiftRight, Nat.shiftRight_eq_div_pow]

theorem shiftRight_of_ge (a : Word) {distance : Nat} (h : 32 ≤ distance) : shiftRight a distance = 0#32 := if_pos h

/-- Both readings of `SHIFT_AMOUNT` at once (40_alu.md R120): a shift `f` with the value `v` at every distance, and 0 from
32 on, has these values at the distance that the word `y` gives. -/
theorem shifted_by_shiftDistance {f : Nat → Word} {v : Nat → Nat} (hvalue : ∀ n, (f n).toNat = v n)
    (hlarge : ∀ n, 32 ≤ n → f n = 0#32) (p : Params) (y : Word) :
    (p.shiftAmount = .mask5 → (f (shiftDistance p y)).toNat = v (y.toNat % 32)) ∧
    (p.shiftAmount = .saturate → y.toNat < 32 → (f (shiftDistance p y)).toNat = v y.toNat) ∧
    (p.shiftAmount = .saturate → 32 ≤ y.toNat → f (shiftDistance p y) = 0#32) := by
  refine ⟨fun h => ?mask5, fun h _ => ?saturate, fun h hy => ?past⟩
  case mask5 => rw [shiftDistance_mask5 h, hvalue]
  case saturate => rw [shiftDistance_saturate h, hvalue]
  case past => rw [shiftDistance_saturate h, hlarge _ hy]

/-! ### SHL and SHR -/

/-- Settles O46: SHL writes the left shift by `ShAmt`, which is the product with a power of two at every distance. -/
theorem shlMultipliesByAPowerOfTwo : Obligations.ShlMultipliesByAPowerOfTwo := by
  unfold Obligations.ShlMultipliesByAPowerOfTwo
  refine fun s d a b => ⟨decodeWord_append _ d a b, fun hd ha hb => ?_,
    exec_of_binaryResult_invalid (exec_shl s d a b) rfl rfl⟩
  exact ⟨_, exec_of_operation_ok (exec_shl s d a b) rfl rfl hd ha hb rfl,
    shifted_by_shiftDistance (shiftLeft_toNat _) (fun _ => shiftLeft_of_ge _) s.params _⟩

/-- Settles O47: SHR writes the logical right shift by `ShAmt`, which is the quotient by a power of two. -/
theorem shrDividesByAPowerOfTwo : Obligations.ShrDividesByAPowerOfTwo := by
  unfold Obligations.ShrDividesByAPowerOfTwo
  refine fun s d a b => ⟨decodeWord_append _ d a b, fun hd ha hb => ?_,
    exec_of_binaryResult_invalid (exec_shr s d a b) rfl rfl⟩
  exact ⟨_, exec_of_operation_ok (exec_shr s d a b) rfl rfl hd ha hb rfl,
    shifted_by_shiftDistance (shiftRight_toNat _) (fun _ => shiftRight_of_ge _) s.params _⟩

/-! ### AND, OR and XOR -/

/-- What the statement says of the instruction form `mk` with the opcode byte `o` and the function `bit` of two bits. -/
def ActsBitwise (o : Byte) (mk : Byte → Byte → Byte → Instr) (bit : Bool → Bool → Bool) : Prop :=
  ∀ (s : State) (d a b : Byte),
    decodeWord (o ++ d ++ a ++ b) = .ok (mk d a b) ∧
    (∀ (hd : d.toNat < 4) (ha : a.toNat < 4) (hb : b.toNat < 4),
      ∃ r : Word, exec (mk d a b) s = .next { s with regs := s.regs.set ⟨d.toNat, hd⟩ r } ∧
        ∀ k, k < 32 → r.getLsbD k =
          bit ((s.regs.get ⟨a.toNat, ha⟩).getLsbD k) ((s.regs.get ⟨b.toNat, hb⟩).getLsbD k)) ∧
    (4 ≤ a.toNat ∨ 4 ≤ b.toNat ∨ 4 ≤ d.toNat →
      exec (mk d a b) s = .next { s with halted := true, fault := some .invalidRegister })

/-- An instruction computed directly from an operation on words acts bitwise when the operation does. -/
theorem actsBitwise_of_direct {o : Byte} {mk : Byte → Byte → Byte → Instr} {g : Word → Word → Word}
    {bit : Bool → Bool → Bool} (hdecode : ∀ d a b, instrOfFields ⟨o, d, a, b⟩ = .ok (mk d a b))
    (hexec : ∀ s d a b, exec (mk d a b) s = conclude s (binaryResult s o (direct g) d a b))
    (h1 : modeTable o .op1 = .register) (h2 : modeTable o .op2 = .register)
    (hbit : ∀ x y k, (g x y).getLsbD k = bit (x.getLsbD k) (y.getLsbD k)) : ActsBitwise o mk bit :=
  fun s d a b => ⟨(decodeWord_append o d a b).trans (hdecode d a b),
    fun hd ha hb => ⟨_, exec_of_operation_ok (hexec s d a b) h1 h2 hd ha hb rfl, fun k _ => hbit _ _ k⟩,
    exec_of_binaryResult_invalid (hexec s d a b) h1 h2⟩

/-- Settles O44: the three operations on words are core Lean's, which act on each bit alone. -/
theorem logicIsBitwiseAndWritesNoFlag : Obligations.LogicIsBitwiseAndWritesNoFlag := by
  unfold Obligations.LogicIsBitwiseAndWritesNoFlag
  have hand : ActsBitwise 0x04#8 .and fun u v => u && v :=
    actsBitwise_of_direct (fun _ _ _ => rfl) exec_and rfl rfl fun _ _ _ => BitVec.getLsbD_and
  have hor : ActsBitwise 0x05#8 .or fun u v => u || v :=
    actsBitwise_of_direct (fun _ _ _ => rfl) exec_or rfl rfl fun _ _ _ => BitVec.getLsbD_or
  have hxor : ActsBitwise 0x06#8 .xor fun u v => u ^^ v :=
    actsBitwise_of_direct (fun _ _ _ => rfl) exec_xor rfl rfl fun _ _ _ => BitVec.getLsbD_xor
  simp only [List.forall_mem_cons]
  exact ⟨hand, hor, hxor, List.forall_mem_nil _⟩

/-! ### NOT -/

theorem exec_not_of_lt {s : State} {d a : Byte} (hd : d.toNat < 4) (ha : a.toNat < 4) :
    exec (.not d a) s = .next (s.setReg ⟨d.toNat, hd⟩ (~~~s.regs.get ⟨a.toNat, ha⟩)) := by
  rw [exec_not, (unaryResult_ok rfl).mpr ⟨_, _, regIndex_of_lt ha, regIndex_of_lt hd, rfl⟩, conclude_ok]

theorem exec_not_invalid {s : State} {d a : Byte} (h : 4 ≤ a.toNat ∨ 4 ≤ d.toNat) :
    exec (.not d a) s = .next (s.raise .invalidRegister) := by
  rw [exec_not, (unaryResult_error rfl).mpr ⟨h, rfl⟩, conclude_error]

/-- Settles O45: the result is the complement of op1's register, and the decoder drops op2. -/
theorem notInvertsEveryBit : Obligations.NotInvertsEveryBit := by
  unfold Obligations.NotInvertsEveryBit
  refine fun s d a ignored => ⟨decodeWord_append _ d a ignored, fun hd ha => ?_, exec_not_invalid⟩
  refine ⟨_, exec_not_of_lt hd ha, fun k hk => ?_⟩
  rw [BitVec.getLsbD_not, decide_eq_true hk, Bool.true_and]

end Sys2Proof.Machine
end

section
/-! PROOFS. The comparisons (44_compare.md R180 to R187): all six are one instruction with one relation of two integers
each, so what `COMPARE_DISPATCH` decides and what the flags become is said once. -/

namespace Sys2Proof.Machine

/-! ### Not dispatchable -/

/-- A comparison is `compareExec` of its own opcode byte and ALU function (44_compare.md R180, R181). -/
theorem exec_of_isComparison {i : Instr} (h : isComparison i = true) :
    ∃ opcode f d a b, ∀ s, exec i s = compareExec s opcode f d a b := by
  cases i with
  | eq d a b => exact ⟨_, _, d, a, b, fun s => exec_eq s d a b⟩
  | neq d a b => exact ⟨_, _, d, a, b, fun s => exec_neq s d a b⟩
  | gt d a b => exact ⟨_, _, d, a, b, fun s => exec_gt s d a b⟩
  | lt d a b => exact ⟨_, _, d, a, b, fun s => exec_lt s d a b⟩
  | ge d a b => exact ⟨_, _, d, a, b, fun s => exec_ge s d a b⟩
  | le d a b => exact ⟨_, _, d, a, b, fun s => exec_le s d a b⟩
  | _ => cases h

/-- Settles O49: `compareExec` faults before it looks at its operands. -/
theorem comparisonsFaultByDefault : Obligations.ComparisonsFaultByDefault := by
  unfold Obligations.ComparisonsFaultByDefault
  intro i s hi hdispatch
  obtain ⟨opcode, f, d, a, b, hexec⟩ := exec_of_isComparison hi
  exact (hexec s).trans (compareExec_fault hdispatch)

/-! ### Dispatchable -/

/-- The flags of a comparison's 1 or 0: `Z` is the negation of what it found (40_alu.md R121). -/
theorem flagsOf_truth (found : Bool) : flagsOf (truth found) false = { z := !found, n := false, o := false } := by
  cases found <;> rfl

/-- What the statement says of the instruction form `mk` with the opcode byte `o` and the relation `rel` of two signed
values. -/
def ComparesBy (o : Byte) (mk : Byte → Byte → Byte → Instr) (rel : Int → Int → Bool) : Prop :=
  ∀ (s : State) (d a b : Byte),
    decodeWord (o ++ d ++ a ++ b) = .ok (mk d a b) ∧
    (s.params.compareDispatch = .execute →
      (∀ (hd : d.toNat < 4) (ha : a.toNat < 4) (hb : b.toNat < 4),
        let holds := rel (s.regs.get ⟨a.toNat, ha⟩).toInt (s.regs.get ⟨b.toNat, hb⟩).toInt
        exec (mk d a b) s = .next { s with
          regs := s.regs.set ⟨d.toNat, hd⟩ (if holds then 1#32 else 0#32)
          flags := { z := !holds, n := false, o := false } }) ∧
      (4 ≤ a.toNat ∨ 4 ≤ b.toNat ∨ 4 ≤ d.toNat →
        exec (mk d a b) s = .next { s with halted := true, fault := some .invalidRegister }))

/-- A comparison whose ALU function answers the truth of `rel` on the signed values compares by `rel`. -/
theorem comparesBy_of_truth {o : Byte} {mk : Byte → Byte → Byte → Instr}
    {f : State → Word → Word → Word × State} {rel : Int → Int → Bool}
    (hdecode : ∀ d a b, instrOfFields ⟨o, d, a, b⟩ = .ok (mk d a b))
    (hexec : ∀ s d a b, exec (mk d a b) s = compareExec s o f d a b)
    (h1 : modeTable o .op1 = .register) (h2 : modeTable o .op2 = .register)
    (hf : ∀ s x y, f s x y = withFlags s (truth (rel x.toInt y.toInt)) false) : ComparesBy o mk rel := by
  refine fun s d a b => ⟨(decodeWord_append o d a b).trans (hdecode d a b), fun hdispatch => ?_⟩
  have hconclude := (hexec s d a b).trans (compareExec_execute hdispatch)
  refine ⟨fun hd ha hb => ?_, exec_of_binaryResult_invalid hconclude h1 h2⟩
  simp only [← flagsOf_truth]
  exact exec_of_operation_ok hconclude h1 h2 hd ha hb (congrArg Except.ok (hf s _ _))

/-- Settles O48: each ALU function tests its relation on the signed values. EQ and NEQ test the words, which are equal
exactly when their signed values are. -/
theorem comparisonsExecuteAsSignedRelations : Obligations.ComparisonsExecuteAsSignedRelations := by
  unfold Obligations.ComparisonsExecuteAsSignedRelations
  have heq : ComparesBy 0x0A#8 .eq fun u v => decide (u = v) :=
    comparesBy_of_truth (fun _ _ _ => rfl) exec_eq rfl rfl fun _ _ _ => by simp only [BitVec.toInt_inj, aluEq]
  have hneq : ComparesBy 0x0B#8 .neq fun u v => decide (u ≠ v) :=
    comparesBy_of_truth (fun _ _ _ => rfl) exec_neq rfl rfl fun _ _ _ => by simp only [ne_eq, BitVec.toInt_inj, aluNeq]
  have hgt : ComparesBy 0x0C#8 .gt fun u v => decide (v < u) :=
    comparesBy_of_truth (fun _ _ _ => rfl) exec_gt rfl rfl fun _ _ _ => rfl
  have hlt : ComparesBy 0x0D#8 .lt fun u v => decide (u < v) :=
    comparesBy_of_truth (fun _ _ _ => rfl) exec_lt rfl rfl fun _ _ _ => rfl
  have hge : ComparesBy 0x0E#8 .ge fun u v => decide (v ≤ u) :=
    comparesBy_of_truth (fun _ _ _ => rfl) exec_ge rfl rfl fun _ _ _ => rfl
  have hle : ComparesBy 0x0F#8 .le fun u v => decide (u ≤ v) :=
    comparesBy_of_truth (fun _ _ _ => rfl) exec_le rfl rfl fun _ _ _ => rfl
  simp only [List.forall_mem_cons]
  exact ⟨heq, hneq, hgt, hlt, hge, hle, List.forall_mem_nil _⟩

end Sys2Proof.Machine
end

section
/-! PROOFS. LOAD and STORE (45_load_store.md R190 to R192): a word access checks its address alone, so a write shows in
reads through the bytes; a STORE is decided by its operand checks and then by its address. -/

namespace Sys2Proof.Machine

/-! ### A word written and read back -/

/-- The bounds are the address's, so two memories that hold the same word there answer a read alike
(20_memory.md R54). -/
theorem memRead_congr {m m' : Memory} {addr : Word} (h : m'.readWord addr.toNat = m.readWord addr.toNat) :
    memRead m' addr = memRead m addr := by
  rw [memRead, memRead, h]

/-- Settles O29: the write succeeded, so its address is in bounds, and a word read is the written one at that address and
the old one where no byte is shared. -/
theorem writtenWordReadsBack : Obligations.WrittenWordReadsBack := by
  unfold Obligations.WrittenWordReadsBack
  intro m m' addr other v hwrite
  obtain ⟨hbounds, rfl⟩ := memWrite_ok.mp hwrite
  exact ⟨memRead_ok.mpr ⟨hbounds, (readWord_writeWord_same m addr.toNat v).symm⟩,
    fun hdisjoint => memRead_congr (readWord_writeWord_other m addr.toNat v hdisjoint)⟩

/-! ### STORE -/

/-- Alignment as what `MISALIGNED_POLICY = Fault` demands (20_memory.md R56). -/
theorem alignmentOk_iff_of_fault {p : Params} {addr : Word} :
    alignmentOk p addr = true ↔ (p.misalignedPolicy = .fault → addr.toNat % 4 = 0) := by
  rw [alignmentOk_iff]
  cases p.misalignedPolicy <;> simp

theorem alignmentOk_eq_false_iff {p : Params} {addr : Word} :
    alignmentOk p addr = false ↔ p.misalignedPolicy = .fault ∧ addr.toNat % 4 ≠ 0 := by
  rw [← Bool.not_eq_true, alignmentOk_iff_of_fault, Classical.not_imp]

/-- A STORE with valid operands and an address that fails either check faults (60_exceptions.md R234). -/
theorem exec_store_outOfBounds {s : State} {v a : Byte} (hv : v.toNat < 4) (ha : a.toNat < 4)
    (haddr : alignmentOk s.params (s.regs.get ⟨a.toNat, ha⟩) = false ∨ inBounds (s.regs.get ⟨a.toNat, ha⟩) = false) :
    exec (.store v a) s = .next (s.raise .outOfBounds) := by
  rw [exec_store, storeResult_error.mpr (.inr ⟨_, _, regIndex_of_lt hv, regIndex_of_lt ha, haddr, rfl⟩),
    conclude_error]

theorem exec_store_invalid {s : State} {v a : Byte} (h : 4 ≤ v.toNat ∨ 4 ≤ a.toNat) :
    exec (.store v a) s = .next (s.raise .invalidRegister) := by
  rw [exec_store, storeResult_error.mpr (.inl ⟨h, rfl⟩), conclude_error]

/-- Settles O51: the two conditions on the address are the alignment check and the bounds of the model; where both pass
the memory is the written one, whose bytes are known. -/
theorem storeWritesTheWordAtTheAddress : Obligations.StoreWritesTheWordAtTheAddress := by
  unfold Obligations.StoreWritesTheWordAtTheAddress
  refine fun s v a ignored => ⟨decodeWord_append _ v a ignored,
    fun hv ha => ⟨fun hle haligned => ?completes, fun hrefused => ?faults⟩, exec_store_invalid⟩
  case completes =>
    have hbounds := inBounds_iff.mpr (Nat.add_le_add_right hle 4)
    exact ⟨_, exec_store_of_lt hv ha (alignmentOk_iff_of_fault.mpr haligned) hbounds, holdsAfterStore_writeWord _ _ _⟩
  case faults =>
    exact exec_store_outOfBounds hv ha (hrefused.symm.imp alignmentOk_eq_false_iff.mpr fun hout =>
      inBounds_eq_false_iff.mpr (Nat.add_lt_add_right hout 4))

/-! ### LOAD -/

theorem exec_load_invalid {s : State} {d : Byte} (imm : Byte) (h : 4 ≤ d.toNat) :
    exec (.load d imm) s = .next (s.raise .invalidRegister) := by
  rw [exec_load, loadResult_error.mpr ⟨h, rfl⟩, conclude_error]

/-- Settles O50: the literal slot resolves to its own zero extension, in whatever state. -/
theorem loadWritesItsLiteral : Obligations.LoadWritesItsLiteral := by
  unfold Obligations.LoadWritesItsLiteral
  refine fun s d imm ignored => ⟨decodeWord_append _ d imm ignored, fun hd => ?_, exec_load_invalid imm⟩
  rw [← setWidth_eq_ofNat]
  exact exec_load_of_lt imm hd

end Sys2Proof.Machine
end

section
/-! PROOFS. Control transfer (46_control_transfer.md R200 to R204): CALL and RET are decided by the register check and by
where `sp` lies, said once for each, so that a RET after a CALL reads back the word the CALL wrote. -/

namespace Sys2Proof.Machine

/-! ### Where a push is refused -/

/-- The range check refuses an `sp` below 0x204 and the bounds one above 0x400, where `sp - 4` does not wrap
(20_memory.md R53, R58). -/
theorem pushRefused_iff {sp : Word} :
    (pushOk sp = false ∨ inBounds (sp - 4#32) = false) ↔ sp.toNat < 0x204 ∨ 0x400 < sp.toNat := by
  rw [← Bool.not_eq_true (pushOk sp), pushOk_iff, inBounds_eq_false_iff, stackBase, memSize]
  rcases Nat.lt_or_ge sp.toNat 0x204 with hlow | hfree
  · exact iff_of_true (.inl (Nat.not_le.mpr hlow)) (.inl hlow)
  · rw [sub_four_toNat (by omega)]
    omega

/-! ### CALL -/

theorem exec_call_outOfBounds {s : State} {r : Byte} (hr : r.toNat < 4) (hsp : s.sp.toNat < 0x204 ∨ 0x400 < s.sp.toNat) :
    exec (.call r) s = .next (s.raise .outOfBounds) := by
  rw [exec_call, callResult_error.mpr (.inr ⟨hr, pushRefused_iff.mpr hsp, rfl⟩), conclude_error]

theorem exec_call_invalid {s : State} {r : Byte} (h : 4 ≤ r.toNat) :
    exec (.call r) s = .next (s.raise .invalidRegister) := by
  rw [exec_call, callResult_error.mpr (.inl ⟨h, rfl⟩), conclude_error]

/-- Settles O53: a CALL completes where neither check of its push refuses, in the memory of `writeWord`, whose bytes are
known. -/
theorem callPushesItsOwnAddress : Obligations.CallPushesItsOwnAddress := by
  unfold Obligations.CallPushesItsOwnAddress
  refine fun s r x y => ⟨decodeWord_append _ r x y,
    fun hr => ⟨fun hlo hhi => ⟨_, exec_call_of_lt hr hlo hhi, ?stored⟩, exec_call_outOfBounds hr⟩, exec_call_invalid⟩
  case stored =>
    rw [← sub_four_toNat (show 4 ≤ s.sp.toNat by omega)]
    exact holdsAfterStore_writeWord s.mem _ s.pc

/-! ### RET -/

theorem exec_ret_outOfBounds {s : State} (hsp : 0x2FC < s.sp.toNat) : exec .ret s = .next (s.raise .outOfBounds) := by
  have hempty : popOk s.sp = false := by
    rw [← Bool.not_eq_true, popOk_iff, stackEnd]
    omega
  rw [exec_ret, retResult_error.mpr ⟨hempty, rfl⟩, conclude_error]

/-- Settles O54: the word RET reads is the concatenation of its four bytes. -/
theorem retPopsIntoPc : Obligations.RetPopsIntoPc := by
  unfold Obligations.RetPopsIntoPc
  exact fun s x y z => ⟨decodeWord_append _ x y z, exec_ret_of_le, exec_ret_outOfBounds⟩

/-! ### A RET after its CALL -/

/-- A CALL that leaves no fault made its push, since a fault of its own would be recorded. -/
theorem exec_call_without_fault {s t : State} {r : Byte} (h : exec (.call r) s = .next t) (hfault : t.fault = none) :
    ∃ i, pushOk s.sp = true ∧ inBounds (s.sp - 4#32) = true ∧
      t = { s with pc := s.regs.get i, sp := s.sp - 4#32, mem := s.mem.writeWord (s.sp - 4#32).toNat s.pc } := by
  rcases conclude_next.mp ((exec_call s r).symm.trans h) with hcompleted | ⟨_, _, rfl⟩
  · obtain ⟨i, _, hpush⟩ := callResult_ok.mp hcompleted
    exact ⟨i, hpush⟩
  · exact absurd hfault (by simp)

/-- Settles O55: the RET reads the word the CALL wrote; the invariant bounds `sp` above, so that the pop is accepted. -/
theorem retAfterCallReturnsToTheCall : Obligations.RetAfterCallReturnsToTheCall := by
  unfold Obligations.RetAfterCallReturnsToTheCall
  intro s t r p hinv hcall hfault
  obtain ⟨i, hpush, hbounds, rfl⟩ := exec_call_without_fault hcall hfault
  have hpop : (s.sp - 4#32).toNat ≤ 0x2FC := by
    have hlow := pushOk_iff.mp hpush
    have hhigh := hinv.spHigh
    simp only [stackBase, stackEnd] at hlow hhigh
    rw [sub_four_toNat (by omega)]
    omega
  refine ⟨rfl, memRead_ok.mpr ⟨hbounds, (readWord_writeWord_same _ _ _).symm⟩, ?returns⟩
  case returns =>
    rw [exec_ret_of_le hpop]
    simp only [readWord_writeWord_same, BitVec.sub_add_cancel]

/-! ### The jumps -/

/-- A conditional jump that `Z` does not select changes nothing (46_control_transfer.md R201, R202). -/
theorem exec_jump_not_taken {s : State} {i : Instr} {tgt : Byte}
    (h : (i = .jz tgt ∧ s.flags.z = false) ∨ (i = .jnz tgt ∧ s.flags.z = true)) : exec i s = .next s := by
  rcases h with ⟨rfl, hz⟩ | ⟨rfl, hz⟩
  · rw [exec_jz, if_neg (by simp [hz])]
  · rw [exec_jnz, if_pos hz]

/-- Settles O52: each jump is taken or not by `Z` alone, and its literal target is the operand's zero extension. -/
theorem jumpsGoToTheirLiteralTarget : Obligations.JumpsGoToTheirLiteralTarget := by
  unfold Obligations.JumpsGoToTheirLiteralTarget
  intro s tgt x y
  simp only [← setWidth_eq_ofNat]
  exact ⟨decodeWord_append _ tgt x y, decodeWord_append _ tgt x y, decodeWord_append _ tgt x y,
    exec_jump_taken (.inl rfl),
    fun hz => ⟨exec_jump_taken (.inr (.inl ⟨rfl, hz⟩)), exec_jump_not_taken (.inr ⟨rfl, hz⟩)⟩,
    fun hz => ⟨exec_jump_not_taken (.inl ⟨rfl, hz⟩), exec_jump_taken (.inr (.inr ⟨rfl, hz⟩))⟩⟩

end Sys2Proof.Machine
end

section
/-! PROOFS. The stack (47_stack.md R210 to R212): PUSH and POP are decided by the register check and by where `sp` lies;
the invariant puts the word of an access that is accepted inside the stack segment; and each PUSH uses up one of the
words that are free below `sp`. -/

namespace Sys2Proof.Machine

/-! ### PUSH -/

theorem exec_push_outOfBounds {s : State} {r : Byte} (hr : r.toNat < 4) (hsp : s.sp.toNat < 0x204 ∨ 0x400 < s.sp.toNat) :
    exec (.push r) s = .next (s.raise .outOfBounds) := by
  rw [exec_push, pushResult_error.mpr (.inr ⟨hr, pushRefused_iff.mpr hsp, rfl⟩), conclude_error]

theorem exec_push_invalid {s : State} {r : Byte} (h : 4 ≤ r.toNat) :
    exec (.push r) s = .next (s.raise .invalidRegister) := by
  rw [exec_push, pushResult_error.mpr (.inl ⟨h, rfl⟩), conclude_error]

/-- Settles O56: a PUSH completes where neither check refuses, in the memory of `writeWord`, whose bytes are known. -/
theorem pushStoresBelowTheStackPointer : Obligations.PushStoresBelowTheStackPointer := by
  unfold Obligations.PushStoresBelowTheStackPointer
  refine fun s r x y => ⟨decodeWord_append _ r x y,
    fun hr => ⟨fun hlo hhi => ⟨_, exec_push_of_lt hr hlo hhi, ?stored⟩, exec_push_outOfBounds hr⟩, exec_push_invalid⟩
  case stored =>
    rw [← sub_four_toNat (show 4 ≤ s.sp.toNat by omega)]
    exact holdsAfterStore_writeWord s.mem _ _

/-! ### POP -/

/-- The range check refuses an `sp` above the last word of the stack segment (20_memory.md R58). -/
theorem popRefused_iff {sp : Word} : popOk sp = false ↔ 0x2FC < sp.toNat := by
  rw [← Bool.not_eq_true, popOk_iff, stackEnd]
  omega

theorem exec_pop_outOfBounds {s : State} {d : Byte} (hd : d.toNat < 4) (hsp : 0x2FC < s.sp.toNat) :
    exec (.pop d) s = .next (s.raise .outOfBounds) := by
  rw [exec_pop, popResult_error.mpr (.inr ⟨hd, popRefused_iff.mpr hsp, rfl⟩), conclude_error]

theorem exec_pop_invalid {s : State} {d : Byte} (h : 4 ≤ d.toNat) :
    exec (.pop d) s = .next (s.raise .invalidRegister) := by
  rw [exec_pop, popResult_error.mpr (.inl ⟨h, rfl⟩), conclude_error]

/-- Settles O57: the word POP reads is the concatenation of its four bytes, and the destination is checked before the
stack. -/
theorem popReadsTheTopOfTheStack : Obligations.PopReadsTheTopOfTheStack := by
  unfold Obligations.PopReadsTheTopOfTheStack
  exact fun s d x y =>
    ⟨decodeWord_append _ d x y, fun hd => ⟨exec_pop_of_lt hd, exec_pop_outOfBounds hd⟩, exec_pop_invalid⟩

/-! ### The stack segment -/

/-- An outcome without a recorded fault is that of a completed instruction: a fault of its own would be recorded. -/
theorem conclude_without_fault {s t : State} {r : Except RunFault State} (h : conclude s r = .next t)
    (hfault : t.fault = none) : r = .ok t := by
  rcases conclude_next.mp h with hcompleted | ⟨_, _, rfl⟩
  · exact hcompleted
  · exact absurd hfault (by simp)

/-- `sp` is the address of a whole aligned word of the stack segment [0x200, 0x300) (20_memory.md R51, R60). -/
def InStackSegment (sp : Word) : Prop := 0x200 ≤ sp.toNat ∧ sp.toNat + 4 ≤ 0x300 ∧ sp.toNat % 4 = 0

/-- The word of a push that the range check accepts (47_stack.md R212). -/
theorem State.Inv.push_inStackSegment {s : State} (h : s.Inv) (hp : pushOk s.sp = true) :
    InStackSegment (s.sp - 4#32) := by
  have hlow := pushOk_iff.mp hp
  have hhigh := h.spHigh
  have haligned := h.spAligned
  simp only [stackBase, stackEnd] at hlow hhigh
  rw [InStackSegment, sub_four_toNat (by omega)]
  omega

/-- The word of a pop that the range check accepts (47_stack.md R212). -/
theorem State.Inv.pop_inStackSegment {s : State} (h : s.Inv) (hp : popOk s.sp = true) : InStackSegment s.sp :=
  ⟨h.spLow, popOk_iff.mp hp, h.spAligned⟩

/-- A PUSH or CALL that leaves no fault passed the range check and wrote the word at its new `sp` alone. -/
theorem pushOk_of_exec_without_fault {i : Instr} {s t : State} (hi : ∃ r, i = .push r ∨ i = .call r)
    (h : exec i s = .next t) (hfault : t.fault = none) :
    pushOk s.sp = true ∧ t.sp = s.sp - 4#32 ∧ ∃ v, t.mem = s.mem.writeWord (s.sp - 4#32).toNat v := by
  rcases hi with ⟨r, rfl | rfl⟩
  · obtain ⟨_, _, hp, _, rfl⟩ := pushResult_ok.mp (conclude_without_fault ((exec_push s r).symm.trans h) hfault)
    exact ⟨hp, rfl, _, rfl⟩
  · obtain ⟨_, hp, _, rfl⟩ := exec_call_without_fault h hfault
    exact ⟨hp, rfl, _, rfl⟩

/-- A POP or RET that leaves no fault passed the range check and wrote no memory. -/
theorem popOk_of_exec_without_fault {i : Instr} {s t : State} (hi : i = .ret ∨ ∃ d, i = .pop d)
    (h : exec i s = .next t) (hfault : t.fault = none) : popOk s.sp = true ∧ t.mem = s.mem := by
  rcases hi with rfl | ⟨d, rfl⟩
  · obtain ⟨hp, _, rfl⟩ := retResult_ok.mp (conclude_without_fault ((exec_ret s).symm.trans h) hfault)
    exact ⟨hp, rfl⟩
  · obtain ⟨_, _, hp, _, rfl⟩ := popResult_ok.mp (conclude_without_fault ((exec_pop s d).symm.trans h) hfault)
    exact ⟨hp, rfl⟩

/-- Settles O23: without a fault the range check accepted `sp`, which the invariant bounds on the other side and keeps
aligned. -/
theorem stackAccessesStayInTheStackSegment : Obligations.StackAccessesStayInTheStackSegment := by
  unfold Obligations.StackAccessesStayInTheStackSegment
  refine fun i s t hinv h hfault => ⟨fun hi => ?push, fun hi => ?pop⟩
  case push =>
    obtain ⟨hp, hsp, v, hmem⟩ := pushOk_of_exec_without_fault hi h hfault
    obtain ⟨hlow, hhigh, haligned⟩ := hinv.push_inStackSegment hp
    rw [hsp, hmem]
    exact ⟨hlow, hhigh, haligned, fun _ => readByte_writeWord_other _ _ _⟩
  case pop =>
    obtain ⟨hp, hmem⟩ := popOk_of_exec_without_fault hi h hfault
    obtain ⟨hlow, hhigh, haligned⟩ := hinv.pop_inStackSegment hp
    exact ⟨hlow, hhigh, haligned, hmem⟩

/-! ### The capacity of the stack -/

/-- The first instruction that halts the engine ends the sequence. -/
theorem execAll_cons_of_halted {i : Instr} {rest : List Instr} {s t : State} (h : exec i s = .next t)
    (hhalted : t.halted = true) : execAll (i :: rest) s = .next t := by
  simp [execAll, h, hhalted]

/-- A PUSH with a free word uses it up. -/
theorem exec_push_uses_free_word {s : State} {r : Byte} {free : Nat} (hr : r.toNat < 4)
    (hsp : s.sp.toNat = 0x200 + 4 * (free + 1)) (hfree : free + 1 ≤ 64) :
    ∃ t, exec (.push r) s = .next t ∧ t.sp.toNat = 0x200 + 4 * free ∧ t.halted = s.halted := by
  refine ⟨_, exec_push_of_lt hr (by omega) (by omega), ?_, rfl⟩
  rw [sub_four_toNat (by omega)]
  omega

/-- With `free` words below `sp`, as many PUSHes succeed, and the next one finds `sp` at the stack base and faults. -/
theorem execAll_push {rs : List Byte} {s : State} {free : Nat} (hrs : ∀ r ∈ rs, r.toNat < 4)
    (hsp : s.sp.toNat = 0x200 + 4 * free) (hfree : free ≤ 64) (hrun : s.halted = false) :
    (rs.length ≤ free →
      ∃ t, execAll (rs.map Instr.push) s = .next t ∧ t.sp.toNat = s.sp.toNat - 4 * rs.length ∧ t.halted = false) ∧
    (free < rs.length →
      ∃ t, execAll (rs.map Instr.push) s = .next t ∧ t.sp = 0x200#32 ∧ t.halted = true ∧
        t.fault = some .outOfBounds) := by
  induction rs generalizing s free with
  | nil => exact ⟨fun _ => ⟨s, rfl, rfl, hrun⟩, fun h => absurd h (Nat.not_lt_zero _)⟩
  | cons r rest ih =>
    obtain ⟨hr, hrest⟩ := List.forall_mem_cons.mp hrs
    rw [List.map_cons, List.length_cons]
    cases free with
    | zero =>
      refine ⟨fun h => absurd h (Nat.not_succ_le_zero _), fun _ => ?_⟩
      have hfull : exec (.push r) s = .next (s.raise .outOfBounds) := exec_push_outOfBounds hr (by omega)
      exact ⟨_, execAll_cons_of_halted hfull rfl, BitVec.eq_of_toNat_eq hsp, rfl, rfl⟩
    | succ free =>
      obtain ⟨u, hpush, husp, hurun⟩ := exec_push_uses_free_word hr hsp hfree
      have hurun : u.halted = false := hurun.trans hrun
      obtain ⟨hfits, hoverflows⟩ := ih hrest husp (by omega) hurun
      rw [execAll_cons hpush hurun]
      refine ⟨fun hlen => ?_, fun hlen => hoverflows (Nat.lt_of_succ_lt_succ hlen)⟩
      obtain ⟨t, ht, htsp, htrun⟩ := hfits (Nat.le_of_succ_le_succ hlen)
      exact ⟨t, ht, by omega, htrun⟩

/-- Settles O58: below `sp = 0x300` there are 64 free words. -/
theorem theStackHoldsExactlySixtyFourWords : Obligations.TheStackHoldsExactlySixtyFourWords := by
  unfold Obligations.TheStackHoldsExactlySixtyFourWords
  intro rs s hrs hsp hrun
  have hempty : s.sp.toNat = 0x300 := by rw [hsp]; rfl
  rw [← hempty]
  exact execAll_push (free := 64) hrs hempty le_rfl hrun

end Sys2Proof.Machine
end

section
/-! PROOFS. HALT, OUT and what is not dispatchable (48_system.md R220 to R222): HALT is the one effect that halts without
a fault, and the opcode byte alone decides whether the engine has an instruction to dispatch. -/

namespace Sys2Proof.Machine

/-- Settles O6: every instruction has an effect. -/
theorem everyInstrAnswersANextState : Obligations.EveryInstrAnswersANextState := by
  unfold Obligations.EveryInstrAnswersANextState
  exact exec_answers

/-! ### HALT -/

/-- A step whose instruction leaves the engine halted is not advanced (41_execution_cycle.md R145). -/
theorem step_of_exec_halted {s u : State} {i : Instr} (hrun : s.halted = false) (hpc : s.pc.toNat < codeEnd)
    (hdecode : decodeWord (s.mem.readWord s.pc.toNat) = .ok i) (hexec : exec i s = .next u) (hu : u.halted = true) :
    step s = .next u := by
  rw [step_of_exec hrun hpc hdecode hexec, advance_of_halted hu]

/-- Settles O59: `exec` sets `halted`, so the step does not advance `pc`. -/
theorem haltSetsHaltedAlone : Obligations.HaltSetsHaltedAlone := by
  unfold Obligations.HaltSetsHaltedAlone
  exact fun s x y z => ⟨decodeWord_append _ x y z, exec_halt s,
    fun hrun hpc hdecode => step_of_exec_halted hrun hpc hdecode (exec_halt s) rfl⟩

/-- From a running state without a fault, HALT alone among the instructions ends the run normally. -/
theorem exec_endedNormally {i : Instr} {s u : State} (hrun : s.halted = false) (hexec : exec i s = .next u)
    (hended : u.endedNormally) : i = .halt ∧ u = { s with halted := true } := by
  obtain ⟨hhalted, hfault⟩ := hended
  obtain ⟨e, he, rfl⟩ := exec_next hexec
  cases he with
  | halt => exact ⟨rfl, rfl⟩
  | raise f => exact absurd hfault (by simp [Effect.apply])
  | _ => exact absurd (hrun.symm.trans hhalted) Bool.false_ne_true

/-- Settles O18: a fetch or decode fault is recorded, and the advance keeps `halted` and `fault`, so the instruction
ended the run. -/
theorem onlyHaltStopsWithoutAFault : Obligations.OnlyHaltStopsWithoutAFault := by
  unfold Obligations.OnlyHaltStopsWithoutAFault
  intro s t _ h hended
  obtain ⟨hrun, ⟨_, rfl⟩ | ⟨_, ⟨_, _, rfl⟩ | ⟨i, u, hdecode, hexec, rfl⟩⟩⟩ := step_next h
  · exact absurd hended.2 (by simp)
  · exact absurd hended.2 (by simp)
  · obtain ⟨rfl, rfl⟩ := exec_endedNormally hrun hexec (by simpa [State.endedNormally] using hended)
    exact ⟨hdecode, advance_of_halted rfl⟩

/-! ### OUT -/

theorem exec_out_of_lt {s : State} {r : Byte} (hr : r.toNat < 4) :
    exec (.out r) s = .next { s with out := s.out ++ [(⟨r.toNat, hr⟩, s.regs.get ⟨r.toNat, hr⟩)] } := by
  rw [exec_out, outResult_ok.mpr ⟨_, regIndex_of_lt hr, rfl⟩, conclude_ok]

theorem exec_out_invalid {s : State} {r : Byte} (h : 4 ≤ r.toNat) :
    exec (.out r) s = .next (s.raise .invalidRegister) := by
  rw [exec_out, outResult_error.mpr ⟨h, rfl⟩, conclude_error]

/-- Settles O60: the register check decides. -/
theorem outAppendsToTheTrace : Obligations.OutAppendsToTheTrace := by
  unfold Obligations.OutAppendsToTheTrace
  exact fun s r x y => ⟨decodeWord_append _ r x y, exec_out_of_lt, exec_out_invalid⟩

/-! ### What is not dispatchable -/

/-- The comparisons have the opcodes 0x0A to 0x0F (30_encoding.md R84). -/
theorem isComparison_iff_opcode (i : Instr) :
    isComparison i = true ↔ 0x0A ≤ i.opcode.toNat ∧ i.opcode.toNat ≤ 0x0F := by
  cases i <;> simp [isComparison, Instr.opcode]

/-- The opcode byte of the word at an address is the byte three above it (20_memory.md R52, 30_encoding.md R81). -/
theorem wordFields_readWord_opcode (m : Memory) (a : Nat) : (wordFields (m.readWord a)).opcode = m.readByte (a + 3) :=
  congrArg Fields.opcode (wordFields_append _ _ _ _)

/-- Settles O9: a byte above 0x1A has no instruction; one of 0x0A to 0x0F has a comparison, which faults under
`COMPARE_DISPATCH = Fault`, and a fault is not advanced. -/
theorem undispatchableOpcodeRaisesInvalidOpcode : Obligations.UndispatchableOpcodeRaisesInvalidOpcode := by
  unfold Obligations.UndispatchableOpcodeRaisesInvalidOpcode
  intro s hrun hpc hopcode
  simp only [← wordFields_readWord_opcode] at hopcode
  cases hdecode : decodeWord (s.mem.readWord s.pc.toNat) with
  | error e => exact step_of_decode_error hrun hpc hdecode
  | ok i =>
    rw [← opcode_of_decodeWord hdecode] at hopcode
    rcases hopcode with hunassigned | ⟨hlow, hhigh, hdispatch⟩
    · exact absurd (opcode_lt i) (Nat.not_lt.mpr hunassigned)
    · have hexec := comparisonsFaultByDefault i s ((isComparison_iff_opcode i).mpr ⟨hlow, hhigh⟩) hdispatch
      exact step_of_exec_halted hrun hpc hdecode hexec rfl

end Sys2Proof.Machine
end

section
/-! PROOFS. Reset and loading (70_reset_and_hazards.md R260 to R263): what a byte and a word read after bytes were written
from address 0 on. -/

namespace Sys2Proof.Machine

/-! ### Reset -/

/-- Bytes written from address 0 on: each stands at its own index, and past their end nothing changed. -/
theorem readByte_writeBytes_zero (m : Memory) (bytes : List Byte) (k : Nat) :
    (m.writeBytes 0 bytes).readByte k = bytes.getD k (m.readByte k) := by
  rw [readByte_writeBytes]
  by_cases h : k < bytes.length <;> simp [h]

/-- Settles O32: reset writes the first 1024 bytes of the image over a memory of zeros, and the other elements are
constants. -/
theorem resetSetsEveryElement : Obligations.ResetSetsEveryElement := by
  unfold Obligations.ResetSetsEveryElement
  refine ⟨fun p image => ⟨fun i => ?registers, rfl, rfl, rfl, rfl, rfl, rfl, rfl, rfl, fun k hk => ?memory⟩, rfl⟩
  case registers => fin_cases i <;> rfl
  case memory =>
    have htaken : (image.take memSize)[k]? = image[k]? := List.getElem?_take_of_lt hk
    refine (readByte_writeBytes_zero _ _ k).trans ?_
    rw [List.getD_eq_getElem?_getD, htaken]
    rfl

/-- Settles O15: the reset state of the default parameters and an empty image is `State.reset`. -/
theorem resetAndLoadMeetTheMachineInvariant : Obligations.ResetAndLoadMeetTheMachineInvariant := by
  unfold Obligations.ResetAndLoadMeetTheMachineInvariant
  exact ⟨resetWith_inv Params.default [], resetWith_inv, fun _ _ _ => loadCode_keeps_inv⟩

/-! ### Loading -/

/-- Settles O33: the length decides, and the bytes are written from the code segment base, which is 0. -/
theorem loadCodeCopiesAtMostTheCodeSegment : Obligations.LoadCodeCopiesAtMostTheCodeSegment := by
  unfold Obligations.LoadCodeCopiesAtMostTheCodeSegment
  refine fun bytes s => ⟨fun hlen => ⟨_, loadCode_ok.mpr ⟨hlen, rfl⟩, fun k => ?_⟩, fun hlen => ?_⟩
  · rw [codeBase, readByte_writeBytes_zero]
    by_cases hk : k < bytes.length <;> simp [hk]
  · exact if_neg (Nat.not_le.mpr hlen)

theorem programBytes_length (ws : List Word) : (programBytes ws).length = 4 * ws.length := by
  simp [programBytes, wordBytes, List.length_flatMap, Nat.mul_comm]

/-- A program file is written word by word (30_encoding.md R105). -/
theorem writeBytes_programBytes_cons (m : Memory) (a : Nat) (w : Word) (ws : List Word) :
    m.writeBytes a (programBytes (w :: ws)) = (m.writeWord a w).writeBytes (a + 4) (programBytes ws) := rfl

/-- A word below the bytes written is unchanged. -/
theorem readWord_writeBytes_below (m : Memory) {a b : Nat} (bytes : List Byte) (h : b + 4 ≤ a) :
    (m.writeBytes a bytes).readWord b = m.readWord b := by
  have below {k : Nat} (hk : k < a) : (m.writeBytes a bytes).readByte k = m.readByte k := by
    rw [readByte_writeBytes, dif_neg (by omega)]
  simp only [Memory.readWord, below (show b < a by omega), below (show b + 1 < a by omega),
    below (show b + 2 < a by omega), below (show b + 3 < a by omega)]

/-- Word `k` of a program written from `a` on stands at `a + 4k`: the words after it are written above it. -/
theorem readWord_writeBytes_programBytes (m : Memory) (a : Nat) (ws : List Word) (k : Nat) (hk : k < ws.length) :
    (m.writeBytes a (programBytes ws)).readWord (a + 4 * k) = ws[k] := by
  induction ws generalizing m a k with
  | nil => exact absurd hk (Nat.not_lt_zero _)
  | cons w ws ih =>
    rw [writeBytes_programBytes_cons]
    cases k with
    | zero =>
      rw [readWord_writeBytes_below _ _ (by omega)]
      exact readWord_writeWord_same m a w
    | succ k =>
      rw [show a + 4 * (k + 1) = a + 4 + 4 * k by omega]
      exact ih (m.writeWord a w) (a + 4) k (Nat.lt_of_succ_lt_succ hk)

/-- Settles O34: a program that is accepted has at most 64 words, so address `4k` is in the code segment, and the word
written there is fetched. -/
theorem loadedWordsAreFetchedBack : Obligations.LoadedWordsAreFetchedBack := by
  unfold Obligations.LoadedWordsAreFetchedBack
  intro ws s t k hk hload
  obtain ⟨hlen, rfl⟩ := loadCode_ok.mp hload
  rw [programBytes_length, codeSize] at hlen
  have hpc : (BitVec.ofNat 32 (4 * k)).toNat = 4 * k := Nat.mod_eq_of_lt (by omega)
  refine fetch_of_lt (by simp only [hpc, codeEnd]; omega) ?_
  have hword := readWord_writeBytes_programBytes s.mem codeBase ws k hk
  rwa [codeBase, Nat.zero_add, ← hpc] at hword

end Sys2Proof.Machine
end
